-- ==== Sys2Proof/Word.lean ====
section
/-! DEFINITION. The two word types that the spec fixes in width: the instruction word (R6, R14) and the byte of the
load port (R42). A register or a memory cell is NOT one of them: its width `XLEN` is a parameter (R7) and its value is a
non-negative integer (R11), so it is a `Nat` that the invariant of Safety.lean bounds by `CELL_MAX` (R35). -/

namespace Sys2Proof

/-- R6: the instruction word, "a 32-bit unsigned integer"; bit 0 is the least significant (R10). -/
abbrev InstrWord := BitVec 32

/-- R85: one byte of the stream that the load port accepts. -/
abbrev Byte := BitVec 8

end Sys2Proof
end

