-- ==== Sys2Proof/Config.lean ====
section
/-! DEFINITION. The implementation parameters of R5 to R9. "A model takes both as arguments": they are the fields of
`Config`, which the host's configure operation (R200) chooses before load and which no step changes. Nothing of this
machine is left as a free value (93_implementation_defined.md, the note under part 1), so no opaque constant stands
here. -/

namespace Sys2Proof

/-- R8, R146: what POW does when the exact power does not fit in a cell (`POW_OVF`). -/
inductive PowPolicy where
  | fault     -- raise PowOverflowError, write nothing: the value of this hardware (D3)
  | wrap      -- write the power modulo 2^XLEN
  | saturate  -- write CELL_MAX
deriving DecidableEq, Repr

/-- R9: the four parameters; no other exists. -/
structure Config where
  /-- `MEM_SIZE`, the number of memory cells (R5). -/
  memSize : Nat
  /-- `REG_COUNT`, the number of registers (R5). -/
  regCount : Nat
  /-- `XLEN`, the bits of one register and of one memory cell (R7). -/
  xlen : Nat
  /-- `POW_OVF` (R8). -/
  powOvf : PowPolicy
deriving DecidableEq, Repr

/-- R9: `CELL_MAX = 2^XLEN - 1`. -/
def Config.cellMax (c : Config) : Nat := 2 ^ c.xlen - 1

/-- R9's constraint column: the configurations that are accepted (R208, U6 refuse every other). -/
abbrev Config.Valid (c : Config) : Prop := 1 ≤ c.memSize ∧ 1 ≤ c.regCount ∧ 32 ≤ c.xlen

/-- R9's last column: this hardware at the source's default sizes. -/
def Config.default : Config := { memSize := 65536, regCount := 32, xlen := 32, powOvf := .fault }

end Sys2Proof
end

