-- ==== Sys2Proof/Machine/State.lean ====
section
/-! DEFINITION. The machine's state as plain data: the five things of 10_state.md (registers, memory, program counter,
program length, fault latch) and, held beside them, the configuration of R9 that the host chose (a step takes no other
argument, so it stands here; no step changes it). The reasons a load or a step can stop, and the state after reset. -/

namespace Sys2Proof.Machine

/-! ## Fault records -/

/-- R160: the six names of the faults the hardware can raise; R167 gives them no numbers. -/
inductive FaultCause where
  | alignmentError
  | sizeError
  | outOfBoundsError
  | unknownOpcodeError
  | powOverflowError
  | powNegativeExponentError
deriving DecidableEq, Repr

/-- R160: the `kind` component of an `OutOfBoundsError`. -/
inductive BoundsKind where
  | register
  | memory
deriving DecidableEq, Repr

/-- R160: the `operand` component of an `OutOfBoundsError`: the field or the address form that is at fault. DESIGN CHOICE,
log 11: a name for each of the strings of R160, which stand beside them. -/
inductive OperandName where
  | fieldB      -- "B"
  | fieldC      -- "C"
  | fieldE      -- "E"
  | regBPlusD   -- "reg[B]+D"
  | regEPlusD   -- "reg[E]+D"
  | regB        -- "reg[B]"
deriving DecidableEq, Repr

/-- R160: a fault of a step with its information, as an instruction raises it, before `raise` adds the index. -/
inductive FaultInfo where
  /-- R162: a register index `≥ REG_COUNT` or a memory address `≥ MEM_SIZE`; the valid range is `0 .. limit - 1`. -/
  | outOfBounds (kind : BoundsKind) (operand : OperandName) (value limit : Nat)
  /-- R163: field A of the fetched word is no opcode; `word` is the whole word. -/
  | unknownOpcode (a : Nat) (word : InstrWord)
  /-- R164: under `POW_OVF = fault`, the exact power exceeds `CELL_MAX`. -/
  | powOverflow (op1 op2 : Nat)
  /-- R165: a negative exponent. R31 lists it among the latch's values; no step of this machine raises it, because no
  cell is negative (R148). DEDUCED, log 9. -/
  | powNegativeExponent (op1 op2 : Int)
deriving DecidableEq, Repr

/-- R160: the name of a step's fault. -/
def FaultInfo.cause : FaultInfo → FaultCause
  | .outOfBounds _ _ _ _ => .outOfBoundsError
  | .unknownOpcode _ _ => .unknownOpcodeError
  | .powOverflow _ _ => .powOverflowError
  | .powNegativeExponent _ _ => .powNegativeExponentError

/-- R30, R170: what the latch holds after a fault: the cause with its information, and the address the faulting word was
fetched from. -/
structure FaultRecord where
  info : FaultInfo
  index : Nat
deriving DecidableEq, Repr

/-! ## Memory and state -/

/-- R33, R40: the memory array, `MEM_SIZE` cells addressed by cell index. The list holds the cells that are not zero, by
strictly rising address; a cell that is not listed holds 0, its value after load (R36, R203). DESIGN CHOICE, log 4: the
entries are whole cells, since "there are no byte addresses" (R40), each a `Nat`, since `XLEN` is a parameter. -/
abbrev Memory := List (Nat × Nat)

/-- 10_state.md: the whole machine state, after the configuration. -/
structure State where
  /-- R9, R200: the parameters of the run. DESIGN CHOICE, log 1: they stand in the state, and no step changes them. -/
  cfg : Config
  /-- R20: the register file, `x[0] .. x[REG_COUNT - 1]`. -/
  regs : List Nat
  /-- R33: the combined memory. -/
  mem : Memory
  /-- R24: the program counter, a cell index. -/
  pc : Nat
  /-- R27: `PROG_LEN`, fixed at load. -/
  progLen : Nat
  /-- R30: the fault latch. -/
  fault : Option FaultRecord
deriving DecidableEq, Repr

/-! ## Reasons to stop without a state -/

/-- R161, R202: the load procedure ends with one of these and leaves no machine state. No STEP ends in a `Fault`: a step's
fault is the next state in which the latch is set (R170). DESIGN CHOICE, log 7: a load fault is not put into a latch, because
after it there is no state (R202). -/
inductive Fault where
  /-- Raised by load: the length of the byte stream is not a multiple of 4 (R202). Safe: it is the spec's own outcome. -/
  | alignmentError (length : Nat)
  /-- Raised by load: the program has more words than memory has cells (R202). Safe: it is the spec's own outcome. -/
  | sizeError (chunkCount memSize : Nat)
deriving DecidableEq, Repr

/-- R160: the name of a load fault. -/
def Fault.cause : Fault → FaultCause
  | .alignmentError _ => .alignmentError
  | .sizeError _ _ => .sizeError

/-- What the model does not accept. -/
inductive Refusal where
  /-- Raised by an arm of exec for an instruction without a meaning. Safe; no arm uses it: every instruction has one. -/
  | notModelled (mnemonic : String)
  /-- Raised by load: a parameter breaks R9's constraints; "the configuration is refused; no machine exists" (D14, U6).
  Safe: the spec refuses it too. DESIGN CHOICE, log 8: `XLEN < 32` is refused as well. -/
  | invalidConfiguration (cfg : Config)
deriving DecidableEq, Repr

/-! ## Reset -/

/-- R36, R203: the state after load, the only reset, of the empty stream into this hardware at its default sizes: every
register 0, every cell 0, `pc = 0`, `PROG_LEN = 0`, no fault. DESIGN CHOICE, log 2: the empty stream and the default
sizes; each value is the spec's. -/
def State.reset : State where
  cfg := Config.default
  regs := List.replicate Config.default.regCount 0
  mem := []
  pc := 0
  progLen := 0
  fault := none

end Sys2Proof.Machine
end

