-- ==== Sys2Proof/Machine/Flags.lean ====
section
/-! DEFINITION. The machine has no flags, no condition codes and no predicates (R29), so no flag computation stands
here. What takes their place is the run status, which is "a function of `pc`, `PROG_LEN` and the fault latch" (R28). -/

namespace Sys2Proof.Machine

/-- R28: the three statuses of a run. -/
inductive Status where
  | running
  | halted
  | faulted
deriving DecidableEq, Repr

/-- R28: the run status. -/
def State.status (s : State) : Status :=
  match s.fault with
  | some _ => .faulted
  | none => if s.pc < s.progLen then .running else .halted

/-- R90: the machine takes a step exactly when it is running. -/
abbrev State.Running (s : State) : Prop := s.fault = none ∧ s.pc < s.progLen

end Sys2Proof.Machine
end

