-- ==== Sys2Proof/Machine/Ops.lean ====
section
/-! DEFINITION. The named operations of R12 over registers and memory, with their bounds checks (R22, R46, R47), raising a
fault as one shared operation (R170), and the one way an instruction ends: all checks and reads first, then exactly one
write, or a fault and no write (R92, R97). There is no return from a fault to model (R173). -/

namespace Sys2Proof.Machine

/-! ## Memory as a canonical list -/

/-- R36, R203: what a cell that the list does not name holds: 0, its value after load (the spec's decision D10, log 5). -/
@[simp] abbrev Memory.unlisted : Nat := 0

/-- R45, R46: the cell at an address. -/
def Memory.read : Memory → Nat → Nat
  | [], _ => Memory.unlisted
  | (k, v) :: rest, a => if k < a then Memory.read rest a else if k = a then v else Memory.unlisted

/-- R47: the memory whose cell at `a` is `v` and whose other cells are as before; it keeps the canonical form. -/
def Memory.write : Memory → Nat → Nat → Memory
  | [], a, v => if v = Memory.unlisted then [] else [(a, v)]
  | (k, u) :: rest, a, v =>
    if k < a then (k, u) :: Memory.write rest a v
    else
      let tail := if k = a then rest else (k, u) :: rest
      if v = Memory.unlisted then tail else (a, v) :: tail

/-- The canonical form from a lowest address on: addresses strictly rising, no cell listed that holds what an
unlisted one does. -/
def Memory.wfFrom : Nat → Memory → Bool
  | _, [] => true
  | low, (k, v) :: rest => decide (low ≤ k) && decide (v ≠ Memory.unlisted) && Memory.wfFrom (k + 1) rest

/-- The canonical form, in which equal memories are equal lists. -/
def Memory.wf (m : Memory) : Bool := Memory.wfFrom 0 m

/-- R203: the memory that holds the words `ws` at consecutive addresses from `a` on and 0 elsewhere. -/
def Memory.ofWords : Nat → List InstrWord → Memory
  | _, [] => []
  | a, w :: ws =>
    if w.toNat = Memory.unlisted then Memory.ofWords (a + 1) ws else (a, w.toNat) :: Memory.ofWords (a + 1) ws

/-! ## Registers and cells of a state -/

/-- R12: `x[i]`. No register is hardwired or special (R21). DESIGN CHOICE, log 10: past the end of the register file, where
no check lets an instruction read, it is 0. -/
def State.reg (s : State) (i : Nat) : Nat := s.regs.getD i 0

/-- R12: `x[i] <- v`. -/
def State.setReg (s : State) (i : Nat) (v : Nat) : State := { s with regs := s.regs.set i v }

/-- R12: `mem[a]`, for `a < MEM_SIZE`. DESIGN CHOICE, log 15: at `MEM_SIZE` and above, where no check lets an instruction
read and the spec gives no value, it is what the list gives, in every sound state 0; only `dump` shows it. -/
def State.cell (s : State) (a : Nat) : Nat := s.mem.read a

/-- R12: `mem[a] <- v`. -/
def State.setCell (s : State) (a : Nat) (v : Nat) : State := { s with mem := s.mem.write a v }

/-- R12: `pc <- v`. -/
def State.setPc (s : State) (v : Nat) : State := { s with pc := v }

/-- R30: the latch set to a record. -/
def State.setFault (s : State) (r : FaultRecord) : State := { s with fault := some r }

/-! ## Checks -/

/-- R22: `CheckReg(name, i)`, before any access. -/
def checkReg (s : State) (name : OperandName) (i : Nat) : Except FaultInfo Unit :=
  if s.cfg.regCount ≤ i then .error (.outOfBounds .register name i s.cfg.regCount) else .ok ()

/-- R46, R47: the bounds check of a memory address; the address is an unbounded integer and never wraps (R48). -/
def checkAddress (s : State) (form : OperandName) (a : Nat) : Except FaultInfo Unit :=
  if s.cfg.memSize ≤ a then .error (.outOfBounds .memory form a s.cfg.memSize) else .ok ()

/-- R46: `MemRead(addr, 1)`. -/
def memRead (s : State) (form : OperandName) (a : Nat) : Except FaultInfo Nat := do
  checkAddress s form a
  return s.cell a

/-! ## Faults and the end of an instruction -/

/-- R170: `raise F(info)`: the latch takes the fault with the fetch address `pc - 1` (the counter has moved on already);
nothing else changes, and `pc` is not put back (R171). DESIGN CHOICE, log 6: in a state with `pc = 0`, in which no
instruction of a step executes, the index is 0. -/
def raise (s : State) (info : FaultInfo) : State := s.setFault ⟨info, s.pc - 1⟩

/-- R92: the one write with which an instruction completes. -/
inductive Effect where
  | setReg (i : Nat) (v : Nat)
  | setCell (a : Nat) (v : Nat)
deriving DecidableEq, Repr

/-- The state after an instruction's one write. -/
def applyEffect (s : State) : Effect → State
  | .setReg i v => s.setReg i v
  | .setCell a v => s.setCell a v

/-- R47: `MemWrite(addr, 1, v)` as the last act of an instruction: the check, then the one write. -/
def memWrite (s : State) (form : OperandName) (a : Nat) (v : Nat) : Except FaultInfo Effect := do
  checkAddress s form a
  return .setCell a v

/-- R92, R97: an instruction whose checks and reads end in `r`: it "either completes, having written exactly one register
or one memory cell, or raises a fault, having written nothing". -/
def complete (s : State) (r : Except FaultInfo Effect) : Host.Outcome State Fault Refusal :=
  match r with
  | .ok e => .next (applyEffect s e)
  | .error info => .next (raise s info)

end Sys2Proof.Machine
end

