-- ==== Sys2Proof/Machine/Operands.lean ====
section
/-! DEFINITION. The operand forms of R67 and the effective addresses of R127. Register direct is `State.reg` after
`checkReg`; there is no other addressing mode, no pre- or post-modification and no pc-relative form. -/

namespace Sys2Proof.Machine

/-- R66: the immediate constant of `LOAD_CONST`, zero-extended to `XLEN` bits, which leaves its value as it is (R11). -/
def immediate (c : Nat) : Nat := c

/-- R125: the absolute address of `WRITE_MEM`: the field itself. -/
def absoluteAddress (c : Nat) : Nat := c

/-- R48: register plus offset, a mathematical integer that is never reduced (`x[B] + D`, `x[E] + D`). -/
def offsetAddress (s : State) (base offset : Nat) : Nat := s.reg base + offset

/-- R67: register indirect (`x[B]` in `POW`). -/
def indirectAddress (s : State) (base : Nat) : Nat := s.reg base

end Sys2Proof.Machine
end

