-- ==== Sys2Proof/Machine/LoadConst.lean ====
section
/-! DEFINITION. The constant load: LOAD_CONST (41_load_const.md). -/

namespace Sys2Proof.Machine

/-- R110: `x[B] <- C`. -/
def execLoadConst (b c : Nat) (s : State) : Host.Outcome State Fault Refusal :=
  complete s do
    checkReg s .fieldB b
    return .setReg b (immediate c)

end Sys2Proof.Machine
end

