-- ==== Sys2Proof/Machine/MemoryAccess.lean ====
section
/-! DEFINITION. The load and the store: READ_MEM and WRITE_MEM (42_memory_access.md). -/

namespace Sys2Proof.Machine

/-- R120: `x[C] <- mem[x[B] + D]`. -/
def execReadMem (b c d : Nat) (s : State) : Host.Outcome State Fault Refusal :=
  complete s do
    checkReg s .fieldB b
    checkReg s .fieldC c
    let v ← memRead s .regBPlusD (offsetAddress s b d)
    return .setReg c v

/-- R124: `mem[C] <- x[B]`. -/
def execWriteMem (b c : Nat) (s : State) : Host.Outcome State Fault Refusal :=
  complete s do
    checkReg s .fieldB b
    memWrite s .fieldC (absoluteAddress c) (s.reg b)

end Sys2Proof.Machine
end

