-- ==== Sys2Proof/Machine/Power.lean ====
section
/-! DEFINITION. The integer power unit of POW (R143 to R147), computed the way R147 asks for, without ever forming a number
much larger than a cell, so that every POW completes (R152). -/

namespace Sys2Proof.Machine

/-- R147's loop: `p` multiplied by `base` `count` times, given up at the first product above `cellMax`. -/
def mulWithin (cellMax base : Nat) : (count : Nat) → (p : Nat) → Option Nat
  | 0, p => some p
  | n + 1, p => if cellMax < p * base then none else mulWithin cellMax base n (p * base)

/-- R143, R147: the exact power where it fits in a cell of `xlen` bits, `none` where it overflows. `0 ^ 0` is 1 (D5). -/
def powFits (xlen op1 op2 : Nat) : Option Nat :=
  if op2 = 0 then some 1
  else if op1 ≤ 1 then some op1
  else if xlen ≤ op2 then none
  else mulWithin (2 ^ xlen - 1) op1 op2 1

/-- Square-and-multiply, every product taken modulo `m`; `fuel` bounds the bits of the exponent. -/
def powModLoop (m : Nat) : (fuel base exp acc : Nat) → Nat
  | 0, _, _, acc => acc
  | fuel + 1, base, exp, acc =>
    if exp = 0 then acc
    else powModLoop m fuel (base * base % m) (exp / 2) (if exp % 2 = 1 then acc * base % m else acc)

/-- R146, R147: the power modulo `m`, the product taken modulo `m` at every multiplication. -/
def powMod (m op1 op2 : Nat) : Nat := powModLoop m (op2.log2 + 1) (op1 % m) op2 (1 % m)

/-- R146: the value POW writes, or the overflow fault, under the configured policy. -/
def powResult (cfg : Config) (op1 op2 : Nat) : Except FaultInfo Nat :=
  match powFits cfg.xlen op1 op2 with
  | some r => .ok r
  | none =>
    match cfg.powOvf with
    | .fault => .error (.powOverflow op1 op2)
    | .wrap => .ok (powMod (2 ^ cfg.xlen) op1 op2)
    | .saturate => .ok cfg.cellMax

end Sys2Proof.Machine
end

