-- ==== Sys2Proof/Machine/Pow.lean ====
section
/-! DEFINITION. The integer power: POW (43_pow.md). -/

namespace Sys2Proof.Machine

/-- R140: `x[C] <- mem[x[E] + D] ^ mem[x[B]]`; operand 1 is the number raised, operand 2 the exponent (R141). -/
def execPow (b c d e : Nat) (s : State) : Host.Outcome State Fault Refusal :=
  complete s do
    checkReg s .fieldB b
    checkReg s .fieldC c
    checkReg s .fieldE e
    let op1 ← memRead s .regEPlusD (offsetAddress s e d)
    let op2 ← memRead s .regB (indirectAddress s b)
    let r ← powResult s.cfg op1 op2
    return .setReg c r

end Sys2Proof.Machine
end

