-- ==== Sys2Proof/Syntax.lean ====
section
/-! DEFINITION. The whole instruction set (R2): four instructions, one constructor for each row of
spec/opcode_table.json. A field is "an unsigned integer used at its face value" (R66), so a `Nat`; WellFormed.lean holds
each to its width. -/

namespace Sys2Proof

/-- R68: the four decoded forms, operands in the field order B, C, D, E of the assembly text (R80). -/
inductive Instr where
  /-- R110: `LOAD_CONST B, C`: register `b` takes the constant `c`. -/
  | loadConst (b c : Nat)
  /-- R124: `WRITE_MEM B, C`: the cell at address `c` takes register `b`. -/
  | writeMem (b c : Nat)
  /-- R140: `POW B, C, D, E`: register `c` takes (cell at register `e` plus `d`) to the power (cell at register `b`). -/
  | pow (b c d e : Nat)
  /-- R120: `READ_MEM B, C, D`: register `c` takes the cell at register `b` plus `d`. -/
  | readMem (b c d : Nat)
deriving DecidableEq, Repr

/-- R68, R69: the value of field A that selects the instruction. -/
def Instr.opcode : Instr → Nat
  | .loadConst _ _ => 13
  | .writeMem _ _ => 15
  | .pow _ _ _ _ => 22
  | .readMem _ _ _ => 26

end Sys2Proof
end

