-- ==== Sys2Proof/Machine/Dispatch.lean ====
section
/-! DEFINITION. The dispatcher of R95: one arm for each instruction, exhaustive and exclusive (R96). -/

namespace Sys2Proof.Machine

def exec (i : Instr) (s : State) : Host.Outcome State Fault Refusal :=
  match i with
  | .loadConst b c => Sys2Proof.Machine.execLoadConst b c s
  | .writeMem b c => Sys2Proof.Machine.execWriteMem b c s
  | .pow b c d e => Sys2Proof.Machine.execPow b c d e s
  | .readMem b c d => Sys2Proof.Machine.execReadMem b c d s

end Sys2Proof.Machine
end

