-- ==== Sys2Proof/WellFormed.lean ====
section
/-! DEFINITION. Which terms of `Instr` are instructions: each operand fits the field that holds it (R61 to R64). An index
at or above `REG_COUNT` and an address at or above `MEM_SIZE` are legal encodings (R72); they fault when executed. -/

namespace Sys2Proof

/-- A register-index field is 7 bits wide in all four formats (R60). -/
def fitsRegField (i : Nat) : Bool := decide (i < 2 ^ 7)

/-- The constant of `LOAD_CONST`, 11 bits (R61). -/
def fitsConstField (v : Nat) : Bool := decide (v < 2 ^ 11)

/-- The offset of `READ_MEM` and `POW`, 6 bits (R62, R64). -/
def fitsOffsetField (v : Nat) : Bool := decide (v < 2 ^ 6)

/-- The absolute address of `WRITE_MEM`, 14 bits (R63). -/
def fitsAddressField (v : Nat) : Bool := decide (v < 2 ^ 14)

/-- Every operand of the instruction fits its field. -/
def Instr.wellFormed : Instr → Bool
  | .loadConst b c => fitsRegField b && fitsConstField c
  | .writeMem b c => fitsRegField b && fitsAddressField c
  | .pow b c d e => fitsRegField b && fitsRegField c && fitsOffsetField d && fitsRegField e
  | .readMem b c d => fitsRegField b && fitsRegField c && fitsOffsetField d

end Sys2Proof
end

