-- ==== Sys2Proof/Decode.lean ====
section
/-! DEFINITION. The codec: the decoder of R65 to R72, total on every 32-bit word and rejecting by name, then the encoder
of R78 and R82 from the same tables, and the byte order of the load port (R42, R85). The text translator (R79 to R81,
R84) is software outside the hardware (R4) and is not modelled. -/

namespace Sys2Proof

/-! ## Decoding -/

/-- R10, R65: `unpack(word, offset, width)`, the field of `width` bits whose lowest bit is bit `offset`. -/
def unpack (w : InstrWord) (offset width : Nat) : Nat := (w.toNat >>> offset) % 2 ^ width

/-- R60: field A, bits 4..0, the opcode. -/
def fieldA (w : InstrWord) : Nat := unpack w 0 5

/-- R65: field B, bits 11..5, in all four formats. -/
def fieldB (w : InstrWord) : Nat := unpack w 5 7

/-- R61: field C of `LOAD_CONST`, bits 22..12. -/
def fieldCConst (w : InstrWord) : Nat := unpack w 12 11

/-- R62, R64: field C of `READ_MEM` and `POW`, bits 18..12. -/
def fieldCReg (w : InstrWord) : Nat := unpack w 12 7

/-- R63: field C of `WRITE_MEM`, bits 25..12. -/
def fieldCAddress (w : InstrWord) : Nat := unpack w 12 14

/-- R62, R64: field D of `READ_MEM` and `POW`, bits 24..19. -/
def fieldD (w : InstrWord) : Nat := unpack w 19 6

/-- R64: field E of `POW`, bits 31..25. -/
def fieldE (w : InstrWord) : Nat := unpack w 25 7

/-- R68: what the decoder answers: one of the four instructions, or the illegal value of field A. -/
inductive Decoded where
  | instr (i : Instr)
  | unknown (a : Nat)
deriving DecidableEq, Repr

/-- R68: the decoder. Only bits 4..0 select; bits that belong to no field are ignored (R71, D6). -/
def decode (w : InstrWord) : Decoded :=
  match fieldA w with
  | 13 => .instr (.loadConst (fieldB w) (fieldCConst w))
  | 15 => .instr (.writeMem (fieldB w) (fieldCAddress w))
  | 22 => .instr (.pow (fieldB w) (fieldCReg w) (fieldD w) (fieldE w))
  | 26 => .instr (.readMem (fieldB w) (fieldCReg w) (fieldD w))
  | a => .unknown a

/-- The decoder on a row's bits: one word (R60), stored whole in one cell, so no byte order comes between (R42). -/
def decodeTableWord (nbits w : Nat) : Option Instr :=
  match decode (BitVec.ofNat 32 (w % 2 ^ nbits)) with
  | .instr i => some i
  | .unknown _ => none

/-! ## Encoding -/

/-- R78: one entry of `pack`'s list: a value, the place of its lowest bit, and the width it is cut to. -/
structure PackField where
  value : Nat
  offset : Nat
  width : Nat
deriving DecidableEq, Repr

/-- R78: `pack(fields)` on natural operands (U10, log 13): each value cut to its width, shifted to its place and joined, the
whole cut to 32 bits. -/
def pack (fields : List PackField) : InstrWord :=
  BitVec.ofNat 32 (fields.foldl (fun acc f => acc ||| ((f.value % 2 ^ f.width) <<< f.offset)) 0)

/-- R82: the fields that the assembler packs for each instruction. -/
def Instr.fields : Instr → List PackField
  | .loadConst b c => [⟨13, 0, 5⟩, ⟨b, 5, 7⟩, ⟨c, 12, 11⟩]
  | .writeMem b c => [⟨15, 0, 5⟩, ⟨b, 5, 7⟩, ⟨c, 12, 14⟩]
  | .pow b c d e => [⟨22, 0, 5⟩, ⟨b, 5, 7⟩, ⟨c, 12, 7⟩, ⟨d, 19, 6⟩, ⟨e, 25, 7⟩]
  | .readMem b c d => [⟨26, 0, 5⟩, ⟨b, 5, 7⟩, ⟨c, 12, 7⟩, ⟨d, 19, 6⟩]

/-- R82: the word of an instruction; an operand too large for its field keeps its low-order bits (R83). -/
def encode (i : Instr) : InstrWord := pack i.fields

/-- The bits of the word that the instruction's format gives to a field (R61 to R64); the others are unused (R71). -/
def Instr.usedMask : Instr → InstrWord
  | .loadConst _ _ => 0x007FFFFF#32
  | .writeMem _ _ => 0x03FFFFFF#32
  | .pow _ _ _ _ => 0xFFFFFFFF#32
  | .readMem _ _ _ => 0x01FFFFFF#32

/-- R83: the instruction whose operands are the low-order bits of the given ones. -/
def Instr.truncated : Instr → Instr
  | .loadConst b c => .loadConst (b % 128) (c % 2048)
  | .writeMem b c => .writeMem (b % 128) (c % 16384)
  | .pow b c d e => .pow (b % 128) (c % 128) (d % 64) (e % 128)
  | .readMem b c d => .readMem (b % 128) (c % 128) (d % 64)

/-! ## The byte order of the load port -/

/-- R42: the instruction word of one little-endian chunk; the byte that arrives first holds bits 7..0. -/
def wordOfBytes (b0 b1 b2 b3 : Byte) : InstrWord :=
  BitVec.ofNat 32 (b0.toNat + 256 * b1.toNat + 65536 * b2.toNat + 16777216 * b3.toNat)

/-- R201: the words of a byte stream, chunk by chunk in stream order. -/
def wordsOfBytes : List Byte → List InstrWord
  | b0 :: b1 :: b2 :: b3 :: rest => wordOfBytes b0 b1 b2 b3 :: wordsOfBytes rest
  | _ => []

/-- R82: the 4 bytes of a word, least significant first. -/
def bytesOfWord (w : InstrWord) : List Byte :=
  [BitVec.ofNat 8 w.toNat, BitVec.ofNat 8 (w.toNat / 256), BitVec.ofNat 8 (w.toNat / 65536),
    BitVec.ofNat 8 (w.toNat / 16777216)]

/-- R82, R85: the binary program of a list of instructions, in order. -/
def assemble (program : List Instr) : List Byte := program.flatMap fun i => bytesOfWord (encode i)

end Sys2Proof
end

