-- ==== Sys2Proof/Machine/Fetch.lean ====
section
/-! DEFINITION. The fetch (R93), the increment of the counter (R94), the end of a step whose word is no instruction
(R163), and the placing of one word where the next fetch finds it. -/

namespace Sys2Proof.Machine

/-- R93, R54: the word at `mem[pc]` at this moment. The decoder sees bits 31..0 of the cell (R74); the address is always in
range when the machine runs, so there is no check (R57). -/
def fetchWord (s : State) : InstrWord := BitVec.ofNat 32 (s.cell s.pc)

/-- R94: `pc <- pc + 1`, after the fetch and before execution. -/
def advancePc (s : State) : State := s.setPc (s.pc + 1)

/-- R163: a word whose field A is no opcode raises `UnknownOpcodeError`. -/
def execUnknown (a : Nat) (w : InstrWord) (s : State) : Host.Outcome State Fault Refusal :=
  complete s (.error (.unknownOpcode a w))

/-- One word in the cell that `pc` names, the program made long enough to reach it and the latch clear: what the load of
a program gives (R203), at the place where `s` fetches next. -/
def placeWord (s : State) (w : InstrWord) : State :=
  { s with mem := s.mem.write s.pc w.toNat, progLen := max s.progLen (s.pc + 1), fault := none }

end Sys2Proof.Machine
end

