-- ==== Sys2Proof/Machine/Step.lean ====
section
/-! DEFINITION. One step of the machine (R92). -/

namespace Sys2Proof.Machine

/-- R92: decode the fetched word and dispatch; `s` is the state after the increment of the counter. -/
def executeWord (w : InstrWord) (s : State) : Host.Outcome State Fault Refusal :=
  match decode w with
  | .instr i => exec i s
  | .unknown a => execUnknown a w s

/-- R90 to R92: fetch, increment, decode, execute while the machine runs; a machine that has halted or faulted takes no
step and nothing changes (R91; U15: "a total step function returns the state unchanged", log 3). -/
def step (s : State) : Host.Outcome State Fault Refusal :=
  if s.Running then executeWord (fetchWord s) (advancePc s) else .next s

/-- The state whose next step fetches the word `w` of `nbits` bits: the word is loaded at `pc`, inside the program
(DESIGN CHOICE, log 2: it stands for the load of a program). -/
def State.withFetchWord (s : State) (nbits w : Nat) : State := placeWord s (BitVec.ofNat 32 (w % 2 ^ nbits))

end Sys2Proof.Machine
end

