-- ==== Sys2Proof/Machine/Interface.lean ====
section
/-! DEFINITION. The host's four operations of R200: configure (the choice of `Config`), load (the machine's only reset,
R201 to R206), run (R98) and observe (R100). The host can do nothing to a running machine. -/

namespace Sys2Proof.Machine

/-- R203: the whole state that a successful load establishes, as one action; it takes nothing from an earlier run
(R206). -/
def loadedState (cfg : Config) (words : List InstrWord) : State where
  cfg := cfg
  regs := List.replicate cfg.regCount 0
  mem := Memory.ofWords 0 words
  pc := 0
  progLen := words.length
  fault := none

/-- R201, R202: load. The configuration first (R208), then alignment, then size (D12); the words are not decoded
(R205). -/
def load (cfg : Config) (bytes : List Byte) : Host.Outcome State Fault Refusal :=
  if ¬ cfg.Valid then .refused (.invalidConfiguration cfg)
  else if bytes.length % 4 ≠ 0 then .fault (.alignmentError bytes.length)
  else if cfg.memSize < bytes.length / 4 then .fault (.sizeError (bytes.length / 4) cfg.memSize)
  else .next (loadedState cfg (wordsOfBytes bytes))

/-- R98: at most `n` steps, taken while the machine is running. -/
def runSteps : Nat → State → Host.Outcome State Fault Refusal
  | 0, s => .next s
  | n + 1, s =>
    if s.Running then
      match step s with
      | .next t => runSteps n t
      | .fault f => .fault f
      | .refused r => .refused r
    else .next s

/-- R98: the run: steps until halted or faulted, of which there are never more than `PROG_LEN - pc`. -/
def runToEnd (s : State) : Host.Outcome State Fault Refusal := runSteps (s.progLen - s.pc) s

/-- R100: what the host gets at the end of a run: the snapshot, and the fault latch that marks it failed. -/
structure Observation where
  registers : List Nat
  memory : List Nat
  programCounter : Nat
  fault : Option FaultRecord
deriving DecidableEq, Repr

/-- R100, R200: observe: all registers, all `MEM_SIZE` cells, `pc` and the latch (D8, log 12). -/
def observe (s : State) : Observation where
  registers := s.regs
  memory := (List.range s.cfg.memSize).map s.cell
  programCounter := s.pc
  fault := s.fault

/-- R43, R184: the memory dump of the inclusive range `start .. stop`, each address with its cell. DESIGN CHOICE, log 15: the
spec does not say what a range shows that reaches `MEM_SIZE` or has `start > stop` (N19); here an address that names no cell
is listed with what `State.cell` gives there, and a range with `start > stop` lists nothing. -/
def dump (s : State) (start stop : Nat) : List (Nat × Nat) :=
  (List.range' start (stop + 1 - start)).map fun a => (a, s.cell a)

/-- R200: `execute`: load, run and observe under one configuration. -/
def execute (cfg : Config) (bytes : List Byte) : Host.Outcome Observation Fault Refusal :=
  match load cfg bytes with
  | .next s =>
    match runToEnd s with
    | .next t => .next (observe t)
    | .fault f => .fault f
    | .refused r => .refused r
  | .fault f => .fault f
  | .refused r => .refused r

end Sys2Proof.Machine
end

