-- ==== Sys2Proof/Safety.lean ====
section
/-! DEFINITION. What the claims call a sound state, an instruction that does not fault, and a completed run. -/

namespace Sys2Proof.Machine

/-- The invariant of the machine: what load establishes and every step keeps. -/
structure State.Inv (s : State) : Prop where
  /-- R9: the parameters meet their constraints. -/
  cfg_valid : s.cfg.Valid
  /-- R20: the register file has `REG_COUNT` cells. -/
  regs_length : s.regs.length = s.cfg.regCount
  /-- R35: every register holds at most `CELL_MAX`. -/
  regs_le : ∀ v ∈ s.regs, v ≤ s.cfg.cellMax
  /-- The memory list is in its canonical form. -/
  mem_wf : s.mem.wf = true
  /-- R33: only cells below `MEM_SIZE` exist. -/
  mem_addr : ∀ p ∈ s.mem, p.1 < s.cfg.memSize
  /-- R35: every cell holds at most `CELL_MAX`. -/
  mem_le : ∀ p ∈ s.mem, p.2 ≤ s.cfg.cellMax
  /-- R24: `pc` is in `0 .. PROG_LEN`. -/
  pc_le : s.pc ≤ s.progLen
  /-- R27: `PROG_LEN` is in `0 .. MEM_SIZE`. -/
  progLen_le : s.progLen ≤ s.cfg.memSize
  /-- R171: after a fault, `pc` is one past the address that the record names. -/
  fault_index : ∀ r ∈ s.fault, r.index + 1 = s.pc

/-- The frame of an instruction that writes a register: register `i` holds `v`, and everything else is as it was: every
other register, all of memory, `pc`, `PROG_LEN`, the latch and the configuration. -/
def OnlyRegChanges (s t : State) (i v : Nat) : Prop :=
  t = { s with regs := t.regs } ∧ t.regs.length = s.regs.length ∧ t.reg i = v ∧
    (∀ j, j ≠ i → t.reg j = s.reg j) ∧ ∀ a, t.cell a = s.cell a

/-- The frame of an instruction that writes memory: cell `a` holds `v`, and everything else is as it was: every other
cell, every register, `pc`, `PROG_LEN`, the latch and the configuration. -/
def OnlyCellChanges (s t : State) (a v : Nat) : Prop :=
  t = { s with mem := t.mem } ∧ t.cell a = v ∧ ∀ b, b ≠ a → t.cell b = s.cell b

/-- R170: the frame of an instruction that raises a fault: the latch alone changes, and names the fetch address `pc - 1`. -/
def FaultsWith (s t : State) (info : FaultInfo) : Prop := t = { s with fault := some ⟨info, s.pc - 1⟩ }

/-- R212, items 1, 2, 3 and 5: every check of the instruction passes in the state it executes in. -/
def checksPass (i : Instr) (s : State) : Prop :=
  match i with
  | .loadConst b _ => b < s.cfg.regCount
  | .writeMem b c => b < s.cfg.regCount ∧ c < s.cfg.memSize
  | .readMem b c d => b < s.cfg.regCount ∧ c < s.cfg.regCount ∧ s.reg b + d < s.cfg.memSize
  | .pow b c d e =>
    b < s.cfg.regCount ∧ c < s.cfg.regCount ∧ e < s.cfg.regCount ∧
      s.reg e + d < s.cfg.memSize ∧ s.reg b < s.cfg.memSize ∧
      (s.cfg.powOvf = .fault → s.cell (s.reg e + d) ^ s.cell (s.reg b) ≤ s.cfg.cellMax)

/-- R28, R174: a run has completed when it has halted with no fault; a faulted state is never final. -/
def State.Completed (s : State) : Prop := s.fault = none ∧ s.progLen ≤ s.pc

/-- A run from `s` is safe when no state it reaches is faulted. -/
def SafeFrom (s : State) : Prop := ∀ (n : Nat) (t : State), Sys2Proof.core.run n s = .next t → t.fault = none

/-- R146: the same state in a machine whose cells are `x` bits wide. For every `x` at least as large as the numbers of a
run, it is the reference semantics with unbounded cells. -/
def State.withXlen (s : State) (x : Nat) : State := { s with cfg := { s.cfg with xlen := x } }

end Sys2Proof.Machine
end

