-- ==== Sys2Proof/Certificates/Slice0/Obligations.lean ====
section
/-! DEFINITION. The statements for the provers. Each docstring says which rule of spec/ the statement formalises; one that
rests on a choice of the model names the log entry. -/

open Sys2Proof Sys2Proof.Machine

/-! ## Encoding -/

/-- R68: the decoder, by match and mask and by the bit ranges of its table; every other word is unknown. -/
def Obligations.DecodeFollowsMatchAndMask : Prop :=
  ∀ w : InstrWord,
    (w &&& 0x1F#32 = 0x0D#32 →
      decode w = .instr (.loadConst (w.extractLsb 11 5).toNat (w.extractLsb 22 12).toNat)) ∧
    (w &&& 0x1F#32 = 0x0F#32 →
      decode w = .instr (.writeMem (w.extractLsb 11 5).toNat (w.extractLsb 25 12).toNat)) ∧
    (w &&& 0x1F#32 = 0x16#32 →
      decode w = .instr (.pow (w.extractLsb 11 5).toNat (w.extractLsb 18 12).toNat (w.extractLsb 24 19).toNat
        (w.extractLsb 31 25).toNat)) ∧
    (w &&& 0x1F#32 = 0x1A#32 →
      decode w = .instr (.readMem (w.extractLsb 11 5).toNat (w.extractLsb 18 12).toNat (w.extractLsb 24 19).toNat)) ∧
    (w &&& 0x1F#32 ≠ 0x0D#32 → w &&& 0x1F#32 ≠ 0x0F#32 → w &&& 0x1F#32 ≠ 0x16#32 → w &&& 0x1F#32 ≠ 0x1A#32 →
      decode w = .unknown (w.extractLsb 4 0).toNat)

/-- R69: of the 32 values of field A, four select an instruction; the other 28 select none, and executing such a word raises
`UnknownOpcodeError`. Neither the all-zero word nor the all-ones word is an instruction. -/
def Obligations.FourOfThirtyTwoOpcodes : Prop :=
  (∀ w : InstrWord, (∃ i, decode w = .instr i) ↔ fieldA w ∈ [13, 15, 22, 26]) ∧
  (∀ w : InstrWord, ∀ i, decode w = .instr i → fieldA w = i.opcode) ∧
  (∀ w : InstrWord, fieldA w ∉ [13, 15, 22, 26] → ∀ s : State, ∃ t, executeWord w s = .next t ∧
    FaultsWith s t (.unknownOpcode (fieldA w) w)) ∧
  decode 0x00000000#32 = .unknown 0 ∧ decode 0xFFFFFFFF#32 = .unknown 31

/-- R71, which is the spec's own decision D6: bits 31..23 of LOAD_CONST, 31..25 of READ_MEM and 31..26 of WRITE_MEM change
neither the decoding nor the execution, and the assembler writes them as zero. -/
def Obligations.UnusedBitsAreIgnored : Prop :=
  (∀ w w' : InstrWord, fieldA w = 13 → w &&& 0x007FFFFF#32 = w' &&& 0x007FFFFF#32 →
    (∃ b c, decode w = .instr (.loadConst b c)) ∧ decode w' = decode w ∧ ∀ s, executeWord w' s = executeWord w s) ∧
  (∀ w w' : InstrWord, fieldA w = 26 → w &&& 0x01FFFFFF#32 = w' &&& 0x01FFFFFF#32 →
    (∃ b c d, decode w = .instr (.readMem b c d)) ∧ decode w' = decode w ∧ ∀ s, executeWord w' s = executeWord w s) ∧
  (∀ w w' : InstrWord, fieldA w = 15 → w &&& 0x03FFFFFF#32 = w' &&& 0x03FFFFFF#32 →
    (∃ b c, decode w = .instr (.writeMem b c)) ∧ decode w' = decode w ∧ ∀ s, executeWord w' s = executeWord w s) ∧
  (∀ b c, encode (.loadConst b c) &&& ~~~ 0x007FFFFF#32 = 0#32) ∧
  (∀ b c d, encode (.readMem b c d) &&& ~~~ 0x01FFFFFF#32 = 0#32) ∧
  (∀ b c, encode (.writeMem b c) &&& ~~~ 0x03FFFFFF#32 = 0#32)

/-- R68 against R82: decoding an encoded well-formed instruction gives it back, at every value of every operand. -/
def Obligations.DecodeEncodeRoundTrip : Prop :=
  ∀ i : Instr, i.wellFormed = true → decode (encode i) = .instr i

/-- R68, R71 against R82: a decoded instruction is well-formed, and its encoding is the word with the unused bits zero. -/
def Obligations.EncodeOfDecodedIsTheWord : Prop :=
  ∀ (w : InstrWord) (i : Instr), decode w = .instr i → i.wellFormed = true ∧ encode i = w &&& i.usedMask

/-- R82: the four words as sums, and the bytes of a program, least significant first, in row order. -/
def Obligations.AssemblerWordsAndBytes : Prop :=
  (∀ b c, (encode (.loadConst b c)).toNat = 13 + (b % 128) * 32 + (c % 2048) * 4096) ∧
  (∀ b c d, (encode (.readMem b c d)).toNat = 26 + (b % 128) * 32 + (c % 128) * 4096 + (d % 64) * 524288) ∧
  (∀ b c, (encode (.writeMem b c)).toNat = 15 + (b % 128) * 32 + (c % 16384) * 4096) ∧
  (∀ b c d e, (encode (.pow b c d e)).toNat =
    22 + (b % 128) * 32 + (c % 128) * 4096 + (d % 64) * 524288 + (e % 128) * 33554432) ∧
  (∀ program : List Instr, (assemble program).length = 4 * program.length) ∧
  (∀ (program : List Instr) (n : Nat) (i : Instr), program[n]? = some i → ∀ k < 4,
    ((assemble program).getD (4 * n + k) 0).toNat = (encode i).toNat / 256 ^ k % 256) ∧
  encode (.loadConst 0 123) = 0x0007B00D#32 ∧
  assemble [.loadConst 0 123] = [0x0D#8, 0xB0#8, 0x07#8, 0x00#8]

/-- R83: an operand too large for its field keeps its low-order bits; the worked operand 5000 of LOAD_CONST. -/
def Obligations.LargeOperandKeepsLowBits : Prop :=
  (∀ i : Instr, encode i = encode i.truncated) ∧
  encode (.loadConst 3 5000) = encode (.loadConst 3 904) ∧ encode (.loadConst 3 5000) = 0x0038806D#32

/-- R78 and V1: unpacking a packed field gives the value modulo the field's range. -/
def Obligations.UnpackAfterPack : Prop :=
  ∀ value offset width : Nat, 1 ≤ width → width + offset ≤ 32 →
    unpack (pack [⟨value, offset, width⟩]) offset width = value % 2 ^ width

/-- Words of 95_test_vectors.md section 2.1, decoded. -/
def Obligations.KnownWordsDecode : Prop :=
  decode 0x0007B00D#32 = .instr (.loadConst 0 123) ∧
  decode 0xFFFFFFED#32 = .instr (.loadConst 127 2047) ∧
  decode 0x0000105A#32 = .instr (.readMem 2 1 0) ∧
  decode 0xFFFFFFFA#32 = .instr (.readMem 127 127 63) ∧
  decode 0x0006400F#32 = .instr (.writeMem 0 100) ∧
  decode 0xFFFFFFEF#32 = .instr (.writeMem 127 16383) ∧
  decode 0x08182036#32 = .instr (.pow 1 2 3 4) ∧
  decode 0x80000016#32 = .instr (.pow 0 0 0 64) ∧
  decode 0x0007B00E#32 = .unknown 14

/-! ## Load: the machine's reset -/

/-- R203: what a load that passes its checks sets, as one action. That the cells outside the program start at zero is the
spec's own decision D10. -/
def Obligations.LoadEstablishesTheState : Prop :=
  ∀ (cfg : Config) (bytes : List Byte), cfg.Valid → bytes.length % 4 = 0 → bytes.length / 4 ≤ cfg.memSize →
    ∃ s, load cfg bytes = .next s ∧ s.cfg = cfg ∧
      s.regs.length = cfg.regCount ∧ (∀ i < cfg.regCount, s.reg i = 0) ∧
      (∀ k < bytes.length / 4, s.cell k =
        (bytes.getD (4 * k) 0).toNat + 256 * (bytes.getD (4 * k + 1) 0).toNat +
          65536 * (bytes.getD (4 * k + 2) 0).toNat + 16777216 * (bytes.getD (4 * k + 3) 0).toNat) ∧
      (∀ a, bytes.length / 4 ≤ a → s.cell a = 0) ∧
      s.pc = 0 ∧ s.progLen = bytes.length / 4 ∧ s.fault = none

/-- R202: the two checks of load, in this order, which is the spec's own decision D12; a program that fills memory exactly
is accepted. -/
def Obligations.LoadChecksInOrder : Prop :=
  ∀ (cfg : Config) (bytes : List Byte), cfg.Valid →
    (bytes.length % 4 ≠ 0 → load cfg bytes = .fault (.alignmentError bytes.length)) ∧
    (bytes.length % 4 = 0 → cfg.memSize < bytes.length / 4 →
      load cfg bytes = .fault (.sizeError (bytes.length / 4) cfg.memSize)) ∧
    (bytes.length % 4 = 0 → bytes.length / 4 ≤ cfg.memSize → ∃ s, load cfg bytes = .next s)

/-- R208, the spec's own decision D14, U6: a configuration outside R9's constraints is refused, whatever the stream, and no
other is. That `XLEN < 32` is refused, and refused first, is the model's choice (log entry 8). -/
def Obligations.BadConfigurationIsRefused : Prop :=
  ∀ (cfg : Config) (bytes : List Byte), (∃ r, load cfg bytes = .refused r) ↔ ¬ cfg.Valid

/-- R99: the empty program halts at once, takes no step, and shows registers and memory of zeros and `pc = 0`. -/
def Obligations.EmptyProgramHaltsAtOnce : Prop :=
  ∀ cfg : Config, cfg.Valid →
    (∃ s, load cfg [] = .next s ∧ s.progLen = 0 ∧ s.status = .halted ∧ step s = .next s) ∧
    execute cfg [] = .next { registers := List.replicate cfg.regCount 0, memory := List.replicate cfg.memSize 0,
                             programCounter := 0, fault := none }

/-- R36, R201: the model's reset state is the load of the empty stream at the default configuration (log entry 2: the
choice of the empty stream and the default sizes is the model's). -/
def Obligations.ResetIsTheEmptyLoad : Prop :=
  load Config.default [] = .next State.reset ∧ State.reset.status = .halted

/-- The model's own: placing a word for the next fetch in the state after an empty load is the load of that one word
(log entry 2), and the very next step runs the word. -/
def Obligations.WithFetchWordIsALoad : Prop :=
  (∀ (cfg : Config) (w : Nat),
    (loadedState cfg []).withFetchWord 32 w = loadedState cfg [BitVec.ofNat 32 w]) ∧
  (∀ (s : State) (w : Nat), s.mem.wf = true →
    step (s.withFetchWord 32 w) =
      executeWord (BitVec.ofNat 32 w) { s.withFetchWord 32 w with pc := s.pc + 1 })

/-! ## Invariants -/

/-- The invariant holds of the reset state. -/
def Obligations.ResetStateIsSound : Prop := State.reset.Inv

/-- R36: the invariant holds of every state that load establishes. -/
def Obligations.LoadedStateIsSound : Prop :=
  ∀ (cfg : Config) (bytes : List Byte) (s : State), load cfg bytes = .next s → s.Inv

/-- R20, R24, R27, R33, R35, R171: every step keeps the invariant: the sizes, the canonical memory, the cell bound, the
range of `pc` and `PROG_LEN`, and the latch's index one below `pc`. -/
def Obligations.StepKeepsTheInvariant : Prop :=
  ∀ s t : State, s.Inv → step s = .next t → t.Inv

/-- R35, which the spec marks as derived: "At every point of every run, every register and every memory cell holds an
integer" of at most `CELL_MAX`. -/
def Obligations.EveryValueFitsInACell : Prop :=
  ∀ (cfg : Config) (bytes : List Byte) (s t : State) (n : Nat), load cfg bytes = .next s →
    Sys2Proof.core.run n s = .next t → (∀ i, t.reg i ≤ cfg.cellMax) ∧ ∀ a, t.cell a ≤ cfg.cellMax

/-- R28: the status is a function of `pc`, `PROG_LEN` and the latch; `pc > PROG_LEN` never occurs, so halted means
`pc = PROG_LEN` (the spec marks this last part as derived). -/
def Obligations.StatusFollowsPcAndLatch : Prop :=
  ∀ s : State,
    (s.fault ≠ none → s.status = .faulted) ∧
    (s.fault = none → s.pc < s.progLen → s.status = .running) ∧
    (s.fault = none → s.progLen ≤ s.pc → s.status = .halted) ∧
    (s.Inv → s.pc ≤ s.progLen ∧ (s.status = .halted → s.pc = s.progLen))

/-- R34: the snapshot with the latch shows the whole state but `PROG_LEN` (and the configuration, which is no state). -/
def Obligations.ObservationShowsAllButProgLen : Prop :=
  ∀ s t : State, s.Inv → t.Inv → s.cfg = t.cfg → s.progLen = t.progLen → observe s = observe t → s = t

/-! ## The step and the run -/

/-- R90, R92, R93, R94: a running machine fetches the low 32 bits of the cell at `pc`, moves `pc` on by one, and then runs
the instruction that the word decodes to. -/
def Obligations.StepRunsTheDecodedInstruction : Prop :=
  ∀ s : State, s.fault = none → s.pc < s.progLen →
    ∀ i, decode (BitVec.ofNat 32 (s.cell s.pc)) = .instr i → step s = exec i { s with pc := s.pc + 1 }

/-- R163, R70: a fetched word whose field A is no opcode raises `UnknownOpcodeError` in the step that fetched it, with the
field value, the whole word and the fetch address (the record's shape is the spec's decision D9); no register and no cell
changes. -/
def Obligations.IllegalWordFaults : Prop :=
  ∀ s : State, s.fault = none → s.pc < s.progLen → fieldA (fetchWord s) ∉ [13, 15, 22, 26] →
    step s = .next { s with
      pc := s.pc + 1
      fault := some ⟨.unknownOpcode (fieldA (fetchWord s)) (fetchWord s), s.pc⟩ }

/-- R91: a machine that has halted or faulted takes no step, and no state changes any more. -/
def Obligations.NoStepAfterTheEnd : Prop :=
  ∀ s : State, s.fault ≠ none ∨ s.progLen ≤ s.pc →
    step s = .next s ∧ ∀ n, Sys2Proof.core.run n s = .next s

/-- R26, R27, R101: every step answers a next state; a step of a running machine moves `pc` on by exactly one, whatever it
executes, and nothing changes `PROG_LEN` or the configuration. -/
def Obligations.EveryStepAdvancesByOne : Prop :=
  ∀ s : State, ∃ t, step s = .next t ∧ t.progLen = s.progLen ∧ t.cfg = s.cfg ∧
    t.pc = if s.fault = none ∧ s.pc < s.progLen then s.pc + 1 else s.pc

/-- R92, R97: an instruction answers a next state and has written exactly one register, or exactly one cell, or has raised a
fault and written nothing. LOAD_CONST writes register B, READ_MEM and POW register C, WRITE_MEM the cell at its absolute
address; all but WRITE_MEM leave all of memory as it was, and so does a WRITE_MEM that faults. -/
def Obligations.OneWriteOrOneFault : Prop :=
  ∀ s : State, s.regs.length = s.cfg.regCount → s.mem.wf = true →
    (∀ b c, ∃ t, exec (.loadConst b c) s = .next t ∧
      ((b < s.cfg.regCount ∧ OnlyRegChanges s t b c) ∨ ∃ info, FaultsWith s t info)) ∧
    (∀ b c d, ∃ t, exec (.readMem b c d) s = .next t ∧
      ((c < s.cfg.regCount ∧ OnlyRegChanges s t c (s.cell (offsetAddress s b d))) ∨ ∃ info, FaultsWith s t info)) ∧
    (∀ b c d e, ∃ t, exec (.pow b c d e) s = .next t ∧
      ((c < s.cfg.regCount ∧ ∃ v,
          powResult s.cfg (s.cell (offsetAddress s e d)) (s.cell (indirectAddress s b)) = .ok v ∧
          OnlyRegChanges s t c v) ∨
        ∃ info, FaultsWith s t info)) ∧
    (∀ b c, ∃ t, exec (.writeMem b c) s = .next t ∧
      ((absoluteAddress c < s.cfg.memSize ∧ OnlyCellChanges s t (absoluteAddress c) (s.reg b)) ∨
        ∃ info, FaultsWith s t info)) ∧
    (∀ (i : Instr) (t : State), exec i s = .next t → (∀ b c, i ≠ .writeMem b c) → ∀ a, t.cell a = s.cell a)

/-- R170, R171, R172: a step that faults sets the latch with the fetch address and leaves `pc` one past it; no register and
no cell is written; the machine takes no further step. -/
def Obligations.FaultingStepIsPrecise : Prop :=
  ∀ (s t : State) (r : FaultRecord), s.fault = none → s.pc < s.progLen → step s = .next t → t.fault = some r →
    t = { s with pc := s.pc + 1, fault := some r } ∧ r.index = s.pc ∧
      ∀ n, Sys2Proof.core.run n t = .next t

/-- R168: which instruction can raise which fault. -/
def Obligations.FaultMatrixIsComplete : Prop :=
  (∀ (b c : Nat) (s t : State) (r : FaultRecord), s.fault = none → exec (.loadConst b c) s = .next t →
    t.fault = some r → r.info = .outOfBounds .register .fieldB b s.cfg.regCount) ∧
  (∀ (b c d : Nat) (s t : State) (r : FaultRecord), s.fault = none → exec (.readMem b c d) s = .next t →
    t.fault = some r →
      r.info = .outOfBounds .register .fieldB b s.cfg.regCount ∨
      r.info = .outOfBounds .register .fieldC c s.cfg.regCount ∨
      r.info = .outOfBounds .memory .regBPlusD (s.reg b + d) s.cfg.memSize) ∧
  (∀ (b c : Nat) (s t : State) (r : FaultRecord), s.fault = none → exec (.writeMem b c) s = .next t →
    t.fault = some r →
      r.info = .outOfBounds .register .fieldB b s.cfg.regCount ∨
      r.info = .outOfBounds .memory .fieldC c s.cfg.memSize) ∧
  (∀ (b c d e : Nat) (s t : State) (r : FaultRecord), s.fault = none → exec (.pow b c d e) s = .next t →
    t.fault = some r →
      r.info = .outOfBounds .register .fieldB b s.cfg.regCount ∨
      r.info = .outOfBounds .register .fieldC c s.cfg.regCount ∨
      r.info = .outOfBounds .register .fieldE e s.cfg.regCount ∨
      r.info = .outOfBounds .memory .regEPlusD (s.reg e + d) s.cfg.memSize ∨
      r.info = .outOfBounds .memory .regB (s.reg b) s.cfg.memSize ∨
      (s.cfg.powOvf = .fault ∧ r.info = .powOverflow (s.cell (s.reg e + d)) (s.cell (s.reg b)))) ∧
  (∀ (w : InstrWord) (a : Nat) (s : State), decode w = .unknown a →
    ∃ t, executeWord w s = .next t ∧ t.fault = some ⟨.unknownOpcode a w, s.pc - 1⟩) ∧
  (∀ s : State, s.Inv → s.fault = none → s.pc < s.progLen → s.pc < s.cfg.memSize)

/-- R165, the spec's own decision D4, and R161: no step raises `PowNegativeExponentError`, and none raises a load fault (log
entries 7 and 9). -/
def Obligations.NegativeExponentIsNeverRaised : Prop :=
  ∀ (s t : State) (r : FaultRecord), s.fault = none → step s = .next t → t.fault = some r →
    r.info.cause ≠ .powNegativeExponentError ∧ r.info.cause ≠ .alignmentError ∧ r.info.cause ≠ .sizeError

/-- R212: an instruction executes without a fault exactly when every one of its checks passes. -/
def Obligations.NoFaultExactlyWhenChecksPass : Prop :=
  ∀ (i : Instr) (s : State), s.fault = none → 1 ≤ s.cfg.xlen →
    ((∃ t, exec i s = .next t ∧ t.fault = none) ↔ checksPass i s)

/-- R98: every run of a loaded program ends within `PROG_LEN` steps. Before its end step `m` fetches address `m`; it ends
after `n` steps with `pc = n`, halted with `n = PROG_LEN` or faulted in the step that fetched `n - 1`. -/
def Obligations.RunEndsWithinProgLen : Prop :=
  ∀ (cfg : Config) (bytes : List Byte) (s : State), load cfg bytes = .next s →
    ∃ (n : Nat) (t : State), n ≤ s.progLen ∧ Sys2Proof.core.run n s = .next t ∧ t.status ≠ .running ∧ t.pc = n ∧
      (∀ m < n, ∃ u : State, Sys2Proof.core.run m s = .next u ∧ u.status = .running ∧ u.pc = m) ∧
      (t.fault = none → n = s.progLen) ∧
      (∀ r, t.fault = some r → n = r.index + 1)

/-- R98, R174: the safe runs of a sound state, those that never reach a faulted state, are exactly the runs that reach a
completed one: halted with no fault. -/
def Obligations.SafeRunsAreThoseThatComplete : Prop :=
  ∀ s : State, s.Inv → s.fault = none →
    (SafeFrom s ↔ ∃ (n : Nat) (t : State), Sys2Proof.core.run n s = .next t ∧ t.Completed)

/-- R98, R100: the host's run operation is the machine stepped as often as it can still step, and it ends halted or
faulted; what the host then observes has a value for each register and each cell. -/
def Obligations.ExecuteObservesTheEnd : Prop :=
  (∀ s : State, runToEnd s = (Sys2Proof.core.run (s.progLen - s.pc) s : Host.Outcome State Fault Refusal)) ∧
  (∀ (cfg : Config) (bytes : List Byte) (s : State), load cfg bytes = .next s →
    ∃ t, runToEnd s = .next t ∧ t.status ≠ .running ∧ execute cfg bytes = .next (observe t) ∧
      (observe t).registers.length = cfg.regCount ∧ (observe t).memory.length = cfg.memSize ∧
      ∀ a < cfg.memSize, (observe t).memory[a]? = some (t.cell a))

/-- R213: the termination boundary is fixed: whatever a run stores and wherever, it halts where the length fixed at load
says, and `pc` never goes back. -/
def Obligations.TerminationBoundaryIsFixed : Prop :=
  ∀ (n : Nat) (s t : State), Sys2Proof.core.run n s = .next t →
    t.progLen = s.progLen ∧ t.cfg = s.cfg ∧ s.pc ≤ t.pc ∧
      (t.fault = none → (t.status = .halted ↔ s.progLen ≤ t.pc))

/-- R55: self-modifying code. A WRITE_MEM fetched from address `k` stores into cell `a`. At or behind `k` the cell is never
fetched again; ahead of `k` and inside the program, a machine that comes to run the word at `a`, with no WRITE_MEM to `a`
among the steps in between, fetches the stored value and executes it; at or above `PROG_LEN` the cell is never fetched. -/
def Obligations.StoreIntoTheProgram : Prop :=
  ∀ (s : State) (b a : Nat), s.Inv → s.fault = none → s.pc < s.progLen →
    decode (fetchWord s) = .instr (.writeMem b a) → b < s.cfg.regCount → a < s.cfg.memSize →
    ∃ t, step s = .next t ∧ t.cell a = s.reg b ∧
      (a ≤ s.pc → ∀ (n : Nat) (u : State), Sys2Proof.core.run n t = .next u → u.status = .running → u.pc ≠ a) ∧
      (s.pc < a → a < s.progLen → ∀ (n : Nat) (u : State), Sys2Proof.core.run n t = .next u →
        u.status = .running → u.pc = a →
        (∀ m < n, ∀ (w : State) (b' c' : Nat), Sys2Proof.core.run m t = .next w →
          decode (fetchWord w) = .instr (.writeMem b' c') → absoluteAddress c' ≠ a) →
        fetchWord u = BitVec.ofNat 32 (s.reg b) ∧
          step u = executeWord (BitVec.ofNat 32 (s.reg b)) (advancePc u)) ∧
      (s.progLen ≤ a → ∀ (n : Nat) (u : State), Sys2Proof.core.run n t = .next u → u.status = .running → u.pc ≠ a)

/-- R41, R125: the only instruction that changes a memory cell is WRITE_MEM, at the 14-bit address in its word, so never
above 16383. -/
def Obligations.OnlyWriteMemStores : Prop :=
  ∀ s t : State, s.mem.wf = true → step s = .next t → ∀ a, t.cell a ≠ s.cell a →
    fieldA (fetchWord s) = 15 ∧ fieldCAddress (fetchWord s) = a ∧ a ≤ 16383 ∧ a < s.cfg.memSize

/-- R9, U8: registers 128 and above hold 0 for the whole run, because no instruction can name them. -/
def Obligations.UnnamedRegistersStayZero : Prop :=
  (∀ s t : State, step s = .next t → ∀ i, 128 ≤ i → t.reg i = s.reg i) ∧
  (∀ (cfg : Config) (bytes : List Byte) (s t : State) (n : Nat), load cfg bytes = .next s →
    Sys2Proof.core.run n s = .next t → ∀ i, 128 ≤ i → t.reg i = 0)

/-- R25, R27, R31: no instruction reads `PROG_LEN`, and none reads `pc`, which shows only in the record of a fault. -/
def Obligations.InstructionsSeeNoPcOrProgLen : Prop :=
  (∀ (i : Instr) (s t : State) (n : Nat), exec i s = .next t →
    exec i { s with progLen := n } = .next { t with progLen := n }) ∧
  (∀ (i : Instr) (s t : State) (p : Nat), s.fault = none → exec i s = .next t → t.fault = none →
    exec i { s with pc := p } = .next { t with pc := p })

/-! ## The instructions -/

/-- R110: LOAD_CONST writes its constant into register B and nothing else, for every index below `REG_COUNT`; at or above
it, it raises `OutOfBoundsError` and no register changes; the example word. -/
def Obligations.LoadConstResult : Prop :=
  ∀ s : State, s.regs.length = s.cfg.regCount →
    (∀ b c, b < s.cfg.regCount → ∃ t, exec (.loadConst b c) s = .next t ∧ OnlyRegChanges s t b c) ∧
    (∀ b c, s.cfg.regCount ≤ b → ∃ t, exec (.loadConst b c) s = .next t ∧
      FaultsWith s t (.outOfBounds .register .fieldB b s.cfg.regCount)) ∧
    (s.cfg.regCount = 32 → ∃ t, executeWord 0x0007B00D#32 s = .next t ∧ OnlyRegChanges s t 0 123)

/-- R120: READ_MEM writes the cell at `x[B] + D` into register C and nothing else; the old `x[B]` forms the address, so this
holds for `C = B` too. Its three checks fault in order (the spec's own decision D7), the address being the exact sum
(R48, its decision D13). -/
def Obligations.ReadMemResult : Prop :=
  ∀ s : State, s.regs.length = s.cfg.regCount →
    (∀ b c d, b < s.cfg.regCount → c < s.cfg.regCount → s.reg b + d < s.cfg.memSize →
      ∃ t, exec (.readMem b c d) s = .next t ∧ OnlyRegChanges s t c (s.cell (s.reg b + d))) ∧
    (∀ b c d, s.cfg.regCount ≤ b → ∃ t, exec (.readMem b c d) s = .next t ∧
      FaultsWith s t (.outOfBounds .register .fieldB b s.cfg.regCount)) ∧
    (∀ b c d, b < s.cfg.regCount → s.cfg.regCount ≤ c → ∃ t, exec (.readMem b c d) s = .next t ∧
      FaultsWith s t (.outOfBounds .register .fieldC c s.cfg.regCount)) ∧
    (∀ b c d, b < s.cfg.regCount → c < s.cfg.regCount → s.cfg.memSize ≤ s.reg b + d →
      ∃ t, exec (.readMem b c d) s = .next t ∧
        FaultsWith s t (.outOfBounds .memory .regBPlusD (s.reg b + d) s.cfg.memSize)) ∧
    (2 < s.cfg.regCount → 100 < s.cfg.memSize → s.reg 2 = 100 → s.cell 100 = 123 →
      ∃ t, executeWord 0x0000105A#32 s = .next t ∧ OnlyRegChanges s t 1 123)

/-- R124: WRITE_MEM writes register B into the cell at its address field and nothing else, no register among it. Its two
checks fault in order and store nothing. -/
def Obligations.WriteMemResult : Prop :=
  ∀ s : State, s.mem.wf = true →
    (∀ b c, b < s.cfg.regCount → c < s.cfg.memSize →
      ∃ t, exec (.writeMem b c) s = .next t ∧ OnlyCellChanges s t (absoluteAddress c) (s.reg b)) ∧
    (∀ b c, s.cfg.regCount ≤ b → ∃ t, exec (.writeMem b c) s = .next t ∧
      FaultsWith s t (.outOfBounds .register .fieldB b s.cfg.regCount)) ∧
    (∀ b c, b < s.cfg.regCount → s.cfg.memSize ≤ c → ∃ t, exec (.writeMem b c) s = .next t ∧
      FaultsWith s t (.outOfBounds .memory .fieldC c s.cfg.memSize)) ∧
    (0 < s.cfg.regCount → 100 < s.cfg.memSize → s.reg 0 = 123 →
      ∃ t, executeWord 0x0006400F#32 s = .next t ∧ OnlyCellChanges s t 100 123)

/-- R140, R141: POW writes the exact power of its two cells into register C and nothing else where it fits in a cell; the number
raised is at `x[E] + D`, the exponent at `x[B]`. -/
def Obligations.PowWritesTheExactPower : Prop :=
  ∀ s : State, s.regs.length = s.cfg.regCount → 1 ≤ s.cfg.xlen →
    (∀ b c d e, b < s.cfg.regCount → c < s.cfg.regCount → e < s.cfg.regCount →
      s.reg e + d < s.cfg.memSize → s.reg b < s.cfg.memSize →
      s.cell (s.reg e + d) ^ s.cell (s.reg b) ≤ s.cfg.cellMax →
      ∃ t, exec (.pow b c d e) s = .next t ∧ OnlyRegChanges s t c (s.cell (s.reg e + d) ^ s.cell (s.reg b))) ∧
    (12 < s.cfg.regCount → 700 < s.cfg.memSize → 8 ≤ s.cfg.cellMax → s.reg 10 = 600 → s.reg 11 = 700 →
      s.cell 600 = 2 → s.cell 700 = 3 →
      ∃ t, executeWord 0x1400C176#32 s = .next t ∧ OnlyRegChanges s t 12 8)

/-- R140's exceptions up to the overflow, in the order they are tested, and R169: an index out of range is reported before
any address, operand 1's address before operand 2's, and all of them before an overflow. The order is the spec's own
decision D7. -/
def Obligations.PowChecksInOrder : Prop :=
  ∀ (s : State) (b c d e : Nat),
    (s.cfg.regCount ≤ b → ∃ t, exec (.pow b c d e) s = .next t ∧
      FaultsWith s t (.outOfBounds .register .fieldB b s.cfg.regCount)) ∧
    (b < s.cfg.regCount → s.cfg.regCount ≤ c → ∃ t, exec (.pow b c d e) s = .next t ∧
      FaultsWith s t (.outOfBounds .register .fieldC c s.cfg.regCount)) ∧
    (b < s.cfg.regCount → c < s.cfg.regCount → s.cfg.regCount ≤ e → ∃ t, exec (.pow b c d e) s = .next t ∧
      FaultsWith s t (.outOfBounds .register .fieldE e s.cfg.regCount)) ∧
    (b < s.cfg.regCount → c < s.cfg.regCount → e < s.cfg.regCount → s.cfg.memSize ≤ s.reg e + d →
      ∃ t, exec (.pow b c d e) s = .next t ∧
        FaultsWith s t (.outOfBounds .memory .regEPlusD (s.reg e + d) s.cfg.memSize)) ∧
    (b < s.cfg.regCount → c < s.cfg.regCount → e < s.cfg.regCount → s.reg e + d < s.cfg.memSize →
      s.cfg.memSize ≤ s.reg b → ∃ t, exec (.pow b c d e) s = .next t ∧
        FaultsWith s t (.outOfBounds .memory .regB (s.reg b) s.cfg.memSize))

/-- R146: what POW does when the exact power exceeds `CELL_MAX`, under each of the three policies; the fault is the spec's own
decision D3. -/
def Obligations.PowOverflowPolicies : Prop :=
  ∀ (s : State) (b c d e : Nat), s.regs.length = s.cfg.regCount → 1 ≤ s.cfg.xlen →
    b < s.cfg.regCount → c < s.cfg.regCount → e < s.cfg.regCount →
    s.reg e + d < s.cfg.memSize → s.reg b < s.cfg.memSize →
    s.cfg.cellMax < s.cell (s.reg e + d) ^ s.cell (s.reg b) →
    (s.cfg.powOvf = .fault → ∃ t, exec (.pow b c d e) s = .next t ∧
      FaultsWith s t (.powOverflow (s.cell (s.reg e + d)) (s.cell (s.reg b)))) ∧
    (s.cfg.powOvf = .wrap → ∃ t, exec (.pow b c d e) s = .next t ∧
      OnlyRegChanges s t c (s.cell (s.reg e + d) ^ s.cell (s.reg b) % 2 ^ s.cfg.xlen)) ∧
    (s.cfg.powOvf = .saturate → ∃ t, exec (.pow b c d e) s = .next t ∧ OnlyRegChanges s t c s.cfg.cellMax)

/-- R147, which the spec marks as derived, and R143: the power unit's decision and its values are those of the exact power:
it finds an overflow exactly when the power exceeds `CELL_MAX`, gives the power where it fits, and its product modulo `m` is
the power modulo `m`. -/
def Obligations.PowerUnitIsExact : Prop :=
  (∀ xlen op1 op2 : Nat, 1 ≤ xlen →
    powFits xlen op1 op2 = if op1 ^ op2 ≤ 2 ^ xlen - 1 then some (op1 ^ op2) else none) ∧
  (∀ m op1 op2 : Nat, powMod m op1 op2 = op1 ^ op2 % m)

/-- R145: the table of corner results at `XLEN = 32`, which the spec marks as derived; `0 ^ 0 = 1` is its own decision D5. -/
def Obligations.PowerCornerTable : Prop :=
  powFits 32 0 0 = some 1 ∧ powFits 32 0 5 = some 0 ∧ powFits 32 0 4294967295 = some 0 ∧
  powFits 32 1 4294967295 = some 1 ∧ powFits 32 5 0 = some 1 ∧ powFits 32 4294967295 0 = some 1 ∧
  powFits 32 4294967295 1 = some 4294967295 ∧ powFits 32 2 3 = some 8 ∧ powFits 32 2 10 = some 1024 ∧
  powFits 32 2 31 = some 2147483648 ∧ powFits 32 2 32 = none ∧ powFits 32 3 20 = some 3486784401 ∧
  powFits 32 3 21 = none ∧ powFits 32 10 9 = some 1000000000 ∧ powFits 32 10 10 = none ∧
  powFits 32 65535 2 = some 4294836225 ∧ powFits 32 65536 2 = none ∧ powFits 32 4294967295 2 = none

/-- R51, R45: a READ_MEM of the cell that a WRITE_MEM stored to gives the stored register, whatever address form reaches
it. -/
def Obligations.LoadAfterStore : Prop :=
  ∀ (s : State) (b a r c d : Nat), s.regs.length = s.cfg.regCount → s.mem.wf = true →
    b < s.cfg.regCount → r < s.cfg.regCount → c < s.cfg.regCount → a < s.cfg.memSize → s.reg r + d = a →
    ∃ t u, exec (.writeMem b a) s = .next t ∧ exec (.readMem r c d) t = .next u ∧ u.reg c = s.reg b

/-- R146: under `POW_OVF = fault`, a run that ends without a fault has computed exactly what a machine with wider cells
computes, for every greater width, hence what the reference's unbounded cells compute. -/
def Obligations.FaultPolicyAgreesWithWiderCells : Prop :=
  ∀ (n x : Nat) (s t : State), s.cfg.powOvf = .fault → 1 ≤ s.cfg.xlen → s.cfg.xlen ≤ x →
    Sys2Proof.core.run n s = .next t → t.fault = none →
    Sys2Proof.core.run n (s.withXlen x) = .next (t.withXlen x)
end

