-- ==== Sys2Proof/Laws/Codec.lean ====
section
/-! SUPPORT. The laws of the codec: the range of a field, well-formedness as inequalities, and the five things the decoder
can answer. -/

namespace Sys2Proof

/-- R65: a field of `width` bits is below `2 ^ width`. -/
theorem unpack_lt (w : InstrWord) (offset width : Nat) : unpack w offset width < 2 ^ width :=
  Nat.mod_lt _ (by positivity)

/-- R10: a bit range of the word is the field of that place and width. -/
theorem toNat_extractLsb_eq_unpack (w : InstrWord) (hi lo : Nat) :
    (w.extractLsb hi lo).toNat = unpack w lo (hi - lo + 1) := by
  simp [unpack, BitVec.extractLsb]

@[simp] theorem wellFormed_loadConst (b c : Nat) : (Instr.loadConst b c).wellFormed = true ↔ b < 2 ^ 7 ∧ c < 2 ^ 11 := by
  simp [Instr.wellFormed, fitsRegField, fitsConstField]

@[simp] theorem wellFormed_writeMem (b c : Nat) : (Instr.writeMem b c).wellFormed = true ↔ b < 2 ^ 7 ∧ c < 2 ^ 14 := by
  simp [Instr.wellFormed, fitsRegField, fitsAddressField]

@[simp] theorem wellFormed_pow (b c d e : Nat) :
    (Instr.pow b c d e).wellFormed = true ↔ b < 2 ^ 7 ∧ c < 2 ^ 7 ∧ d < 2 ^ 6 ∧ e < 2 ^ 7 := by
  simp [Instr.wellFormed, fitsRegField, fitsOffsetField, and_assoc]

@[simp] theorem wellFormed_readMem (b c d : Nat) :
    (Instr.readMem b c d).wellFormed = true ↔ b < 2 ^ 7 ∧ c < 2 ^ 7 ∧ d < 2 ^ 6 := by
  simp [Instr.wellFormed, fitsRegField, fitsOffsetField, and_assoc]

/-- Everything the decoder can answer, with the value of field A that selects it. -/
theorem decode_cases (w : InstrWord) :
    (fieldA w = 13 ∧ decode w = .instr (.loadConst (fieldB w) (fieldCConst w))) ∨
    (fieldA w = 15 ∧ decode w = .instr (.writeMem (fieldB w) (fieldCAddress w))) ∨
    (fieldA w = 22 ∧ decode w = .instr (.pow (fieldB w) (fieldCReg w) (fieldD w) (fieldE w))) ∨
    (fieldA w = 26 ∧ decode w = .instr (.readMem (fieldB w) (fieldCReg w) (fieldD w))) ∨
    ((fieldA w ≠ 13 ∧ fieldA w ≠ 15 ∧ fieldA w ≠ 22 ∧ fieldA w ≠ 26) ∧ decode w = .unknown (fieldA w)) := by
  by_cases h13 : fieldA w = 13
  · simp [decode, h13]
  by_cases h15 : fieldA w = 15
  · simp [decode, h15]
  by_cases h22 : fieldA w = 22
  · simp [decode, h22]
  by_cases h26 : fieldA w = 26
  · simp [decode, h26]
  refine .inr (.inr (.inr (.inr ⟨⟨h13, h15, h22, h26⟩, ?_⟩)))
  unfold decode
  split <;> first | contradiction | rfl

end Sys2Proof
end

