-- ==== Sys2Proof/Laws/Memory.lean ====
section
/-! SUPPORT. The laws of the canonical memory list: every operation keeps the form, a read after a write, and which cells
the list of a loaded program names. -/

namespace Sys2Proof.Machine

@[simp] theorem Memory.read_nil (a : Nat) : Memory.read [] a = 0 := rfl

theorem Memory.wfFrom_mono {m : Memory} {lo lo' : Nat} (h : lo' ≤ lo) (hm : Memory.wfFrom lo m = true) :
    Memory.wfFrom lo' m = true := by
  cases m with
  | nil => rfl
  | cons p rest =>
    simp only [Memory.wfFrom, Bool.and_eq_true, decide_eq_true_eq] at hm ⊢
    exact ⟨⟨by omega, hm.1.2⟩, hm.2⟩

/-- Below the lowest listed address nothing is listed. -/
theorem Memory.read_below {m : Memory} {lo a : Nat} (hm : Memory.wfFrom lo m = true) (h : a < lo) : m.read a = 0 := by
  cases m with
  | nil => rfl
  | cons p rest =>
    simp only [Memory.wfFrom, Bool.and_eq_true, decide_eq_true_eq] at hm
    have h1 : ¬ p.1 < a := by omega
    have h2 : ¬ p.1 = a := by omega
    simp [Memory.read, h1, h2]

theorem Memory.wfFrom_write {m : Memory} {lo a : Nat} (v : Nat) (hm : Memory.wfFrom lo m = true) (ha : lo ≤ a) :
    Memory.wfFrom lo (m.write a v) = true := by
  induction m generalizing lo with
  | nil => by_cases hv : v = 0 <;> simp [Memory.write, Memory.wfFrom, hv, ha]
  | cons p rest ih =>
    obtain ⟨k, u⟩ := p
    simp only [Memory.wfFrom, Bool.and_eq_true, decide_eq_true_eq] at hm
    obtain ⟨⟨hlo, hu⟩, hrest⟩ := hm
    by_cases hka : k < a
    · simp [Memory.write, hka, Memory.wfFrom, hlo, ih hrest hka]
      simpa using hu
    · by_cases hke : k = a
      · subst hke
        by_cases hv : v = 0
        · simpa [Memory.write, hv] using Memory.wfFrom_mono (by omega) hrest
        · simp [Memory.write, hv, Memory.wfFrom, hlo, hrest]
      · have hgt : a + 1 ≤ k := by omega
        have hu' : u ≠ 0 := hu
        by_cases hv : v = 0 <;> simp [Memory.write, hka, hke, hv, Memory.wfFrom, hlo, hu', hrest, ha, hgt]

/-- A write keeps the canonical form. -/
theorem Memory.wf_write {m : Memory} (a : Nat) (v : Nat) (hm : m.wf = true) : (m.write a v).wf = true :=
  Memory.wfFrom_write v hm (Nat.zero_le a)

theorem Memory.read_write_from {m : Memory} {lo : Nat} (a : Nat) (v : Nat) (b : Nat) (hm : Memory.wfFrom lo m = true) :
    (m.write a v).read b = if b = a then v else m.read b := by
  induction m generalizing lo with
  | nil =>
    by_cases hv : v = 0
    · simp [Memory.write, hv]
    · by_cases hab : a < b
      · have : ¬ b = a := by omega
        simp [Memory.write, Memory.read, hv, hab, this]
      · by_cases hb : b = a
        · simp [Memory.write, Memory.read, hv, hb]
        · have : ¬ a = b := by omega
          simp [Memory.write, Memory.read, hv, hab, hb, this]
  | cons p rest ih =>
    obtain ⟨k, u⟩ := p
    simp only [Memory.wfFrom, Bool.and_eq_true, decide_eq_true_eq] at hm
    obtain ⟨-, hrest⟩ := hm
    by_cases hka : k < a
    · by_cases hkb : k < b
      · simp [Memory.write, hka, Memory.read, hkb, ih hrest]
      · have : ¬ b = a := by omega
        simp [Memory.write, hka, Memory.read, hkb, this]
    · by_cases hb : b = a
      · subst hb
        by_cases hke : k = b
        · subst hke
          by_cases hv : v = 0
          · simp [Memory.write, hv, Memory.read_below hrest]
          · simp [Memory.write, hv, Memory.read]
        · by_cases hv : v = 0 <;> simp [Memory.write, hka, hke, hv, Memory.read]
      · by_cases hke : k = a
        · subst hke
          by_cases hkb : k < b
          · by_cases hv : v = 0 <;> simp [Memory.write, hv, Memory.read, hkb, hb]
          · have hkb' : ¬ k = b := by omega
            have hlow : Memory.read rest b = 0 := Memory.read_below hrest (by omega)
            by_cases hv : v = 0 <;> simp [Memory.write, hv, Memory.read, hkb, hkb', hb, hlow]
        · by_cases hv : v = 0
          · simp [Memory.write, hka, hke, hv, hb]
          · by_cases hab : a < b
            · simp [Memory.write, hka, hke, hv, hb, Memory.read, hab]
            · have h1 : ¬ a = b := by omega
              have h2 : ¬ k < b := by omega
              have h3 : ¬ k = b := by omega
              simp [Memory.write, hka, hke, hv, hb, Memory.read, hab, h1, h2, h3]

/-- A read after a write: the written cell gives the value, every other cell what it gave. -/
theorem Memory.read_write {m : Memory} (hm : m.wf = true) (a : Nat) (v : Nat) (b : Nat) :
    (m.write a v).read b = if b = a then v else m.read b :=
  Memory.read_write_from a v b hm

/-- Every entry after a write is the written one or was there before. -/
theorem Memory.mem_of_mem_write {m : Memory} {a : Nat} {v : Nat} {p : Nat × Nat} (h : p ∈ m.write a v) :
    p = (a, v) ∨ p ∈ m := by
  induction m with
  | nil =>
    by_cases hv : v = 0
    · simp [Memory.write, hv] at h
    · simp [Memory.write, hv] at h
      exact .inl h
  | cons q rest ih =>
    obtain ⟨k, u⟩ := q
    by_cases hka : k < a
    · simp only [Memory.write, hka, if_true, List.mem_cons] at h ⊢
      rcases h with h | h
      · exact .inr (.inl h)
      · rcases ih h with h' | h'
        · exact .inl h'
        · exact .inr (.inr h')
    · by_cases hke : k = a <;> by_cases hv : v = 0 <;> simp [Memory.write, hka, hke, hv] at h ⊢ <;> tauto

/-- A cell that is not 0 is listed with its value. -/
theorem Memory.mem_of_read_ne_zero {m : Memory} {a : Nat} (h : m.read a ≠ 0) : (a, m.read a) ∈ m := by
  induction m with
  | nil => simp at h
  | cons q rest ih =>
    obtain ⟨k, u⟩ := q
    by_cases hka : k < a
    · simp only [Memory.read, hka, if_true] at h ⊢
      exact List.mem_cons_of_mem _ (ih h)
    · by_cases hke : k = a
      · simp [Memory.read, hke]
      · simp [Memory.read, hka, hke] at h

/-- A bound on every listed cell bounds every read. -/
theorem Memory.read_le {m : Memory} {n : Nat} (h : ∀ p ∈ m, p.2 ≤ n) (a : Nat) : m.read a ≤ n := by
  by_cases h0 : m.read a = 0
  · omega
  · exact h _ (Memory.mem_of_read_ne_zero h0)

theorem Memory.wfFrom_ext {m m' : Memory} {lo lo' : Nat} (hm : Memory.wfFrom lo m = true)
    (hm' : Memory.wfFrom lo' m' = true) (h : ∀ a, m.read a = m'.read a) : m = m' := by
  induction m generalizing lo lo' m' with
  | nil =>
    cases m' with
    | nil => rfl
    | cons q rest =>
      obtain ⟨k, u⟩ := q
      simp only [Memory.wfFrom, Bool.and_eq_true, decide_eq_true_eq] at hm'
      exact absurd (by simpa [Memory.read] using (h k).symm) hm'.1.2
  | cons p rest ih =>
    obtain ⟨k, u⟩ := p
    have hp := hm
    simp only [Memory.wfFrom, Bool.and_eq_true, decide_eq_true_eq] at hm
    cases m' with
    | nil => exact absurd (by simpa [Memory.read] using h k) hm.1.2
    | cons q rest' =>
      obtain ⟨k', u'⟩ := q
      have hp' := hm'
      simp only [Memory.wfFrom, Bool.and_eq_true, decide_eq_true_eq] at hm'
      have hk : k = k' := by
        rcases Nat.lt_trichotomy k k' with hlt | heq | hgt
        · refine absurd ?_ hm.1.2
          have h1 : ¬ k' < k := by omega
          have h2 : ¬ k' = k := by omega
          simpa [Memory.read, h1, h2] using h k
        · exact heq
        · refine absurd ?_ hm'.1.2
          have h1 : ¬ k < k' := by omega
          have h2 : ¬ k = k' := by omega
          simpa [Memory.read, h1, h2] using (h k').symm
      subst hk
      have hu : u = u' := by simpa [Memory.read] using h k
      subst hu
      have hrest : rest = rest' := by
        refine ih hm.2 hm'.2 fun a => ?_
        by_cases hka : k < a
        · simpa [Memory.read, hka] using h a
        · rw [Memory.read_below hm.2 (by omega), Memory.read_below hm'.2 (by omega)]
      rw [hrest]

/-- Canonical memories that read the same everywhere are the same list. -/
theorem Memory.ext {m m' : Memory} (hm : m.wf = true) (hm' : m'.wf = true) (h : ∀ a, m.read a = m'.read a) : m = m' :=
  Memory.wfFrom_ext hm hm' h

/-- The memory of a loaded program is in canonical form. -/
theorem Memory.wfFrom_ofWords (ws : List InstrWord) (a : Nat) : Memory.wfFrom a (Memory.ofWords a ws) = true := by
  induction ws generalizing a with
  | nil => rfl
  | cons w ws ih =>
    by_cases hw : w.toNat = 0
    · simpa [Memory.ofWords, hw] using Memory.wfFrom_mono (Nat.le_succ a) (ih (a + 1))
    · simp [Memory.ofWords, hw, Memory.wfFrom, ih]

theorem Memory.wf_ofWords (ws : List InstrWord) : (Memory.ofWords 0 ws).wf = true := Memory.wfFrom_ofWords ws 0

/-- The list of a loaded program names cells of the program alone, each with one of its words. -/
theorem Memory.mem_ofWords {ws : List InstrWord} {a : Nat} {p : Nat × Nat} (h : p ∈ Memory.ofWords a ws) :
    a ≤ p.1 ∧ p.1 < a + ws.length ∧ p.2 < 2 ^ 32 := by
  induction ws generalizing a with
  | nil => simp [Memory.ofWords] at h
  | cons w ws ih =>
    by_cases hw : w.toNat = 0
    · simp [Memory.ofWords, hw] at h
      have := ih h
      simp only [List.length_cons]
      omega
    · simp [Memory.ofWords, hw] at h
      rcases h with rfl | h
      · have := w.isLt
        simp only [List.length_cons]
        omega
      · have := ih h
        simp only [List.length_cons]
        omega

/-- The cell of a loaded program `k` places after its first address. -/
theorem Memory.read_ofWords (ws : List InstrWord) (a k : Nat) :
    (Memory.ofWords a ws).read (a + k) = (ws.map (·.toNat)).getD k 0 := by
  induction ws generalizing a k with
  | nil => simp [Memory.ofWords]
  | cons w ws ih =>
    cases k with
    | zero =>
      by_cases hw : w.toNat = 0
      · simp [Memory.ofWords, hw, Memory.read_below (Memory.wfFrom_ofWords ws (a + 1))]
      · simp [Memory.ofWords, hw, Memory.read]
    | succ k =>
      have := ih (a + 1) k
      rw [show a + 1 + k = a + (k + 1) by omega] at this
      by_cases hw : w.toNat = 0
      · simpa [Memory.ofWords, hw] using this
      · simpa [Memory.ofWords, hw, Memory.read] using this

end Sys2Proof.Machine
end

