-- ==== Sys2Proof/Laws/State.lean ====
section
/-! SUPPORT. One lemma for each field after each update of the state, so that no later proof unfolds a record update. -/

namespace Sys2Proof.Machine

section
variable (s : State) (i v a n : Nat) (r : FaultRecord) (f : FaultInfo) (w : InstrWord)

@[simp] theorem State.setReg_cfg : (s.setReg i v).cfg = s.cfg := rfl
@[simp] theorem State.setReg_mem : (s.setReg i v).mem = s.mem := rfl
@[simp] theorem State.setReg_pc : (s.setReg i v).pc = s.pc := rfl
@[simp] theorem State.setReg_progLen : (s.setReg i v).progLen = s.progLen := rfl
@[simp] theorem State.setReg_fault : (s.setReg i v).fault = s.fault := rfl
@[simp] theorem State.setReg_regs : (s.setReg i v).regs = s.regs.set i v := rfl
@[simp] theorem State.setReg_cell : (s.setReg i v).cell a = s.cell a := rfl

@[simp] theorem State.setCell_cfg : (s.setCell a v).cfg = s.cfg := rfl
@[simp] theorem State.setCell_regs : (s.setCell a v).regs = s.regs := rfl
@[simp] theorem State.setCell_pc : (s.setCell a v).pc = s.pc := rfl
@[simp] theorem State.setCell_progLen : (s.setCell a v).progLen = s.progLen := rfl
@[simp] theorem State.setCell_fault : (s.setCell a v).fault = s.fault := rfl
@[simp] theorem State.setCell_mem : (s.setCell a v).mem = s.mem.write a v := rfl
@[simp] theorem State.setCell_reg : (s.setCell a v).reg i = s.reg i := rfl

@[simp] theorem State.setPc_cfg : (s.setPc n).cfg = s.cfg := rfl
@[simp] theorem State.setPc_regs : (s.setPc n).regs = s.regs := rfl
@[simp] theorem State.setPc_mem : (s.setPc n).mem = s.mem := rfl
@[simp] theorem State.setPc_pc : (s.setPc n).pc = n := rfl
@[simp] theorem State.setPc_progLen : (s.setPc n).progLen = s.progLen := rfl
@[simp] theorem State.setPc_fault : (s.setPc n).fault = s.fault := rfl
@[simp] theorem State.setPc_reg : (s.setPc n).reg i = s.reg i := rfl
@[simp] theorem State.setPc_cell : (s.setPc n).cell a = s.cell a := rfl

@[simp] theorem State.setFault_cfg : (s.setFault r).cfg = s.cfg := rfl
@[simp] theorem State.setFault_regs : (s.setFault r).regs = s.regs := rfl
@[simp] theorem State.setFault_mem : (s.setFault r).mem = s.mem := rfl
@[simp] theorem State.setFault_pc : (s.setFault r).pc = s.pc := rfl
@[simp] theorem State.setFault_progLen : (s.setFault r).progLen = s.progLen := rfl
@[simp] theorem State.setFault_fault : (s.setFault r).fault = some r := rfl
@[simp] theorem State.setFault_reg : (s.setFault r).reg i = s.reg i := rfl
@[simp] theorem State.setFault_cell : (s.setFault r).cell a = s.cell a := rfl

@[simp] theorem raise_cfg : (raise s f).cfg = s.cfg := rfl
@[simp] theorem raise_regs : (raise s f).regs = s.regs := rfl
@[simp] theorem raise_mem : (raise s f).mem = s.mem := rfl
@[simp] theorem raise_pc : (raise s f).pc = s.pc := rfl
@[simp] theorem raise_progLen : (raise s f).progLen = s.progLen := rfl
@[simp] theorem raise_fault : (raise s f).fault = some ⟨f, s.pc - 1⟩ := rfl
@[simp] theorem raise_reg : (raise s f).reg i = s.reg i := rfl
@[simp] theorem raise_cell : (raise s f).cell a = s.cell a := rfl

@[simp] theorem advancePc_cfg : (advancePc s).cfg = s.cfg := rfl
@[simp] theorem advancePc_regs : (advancePc s).regs = s.regs := rfl
@[simp] theorem advancePc_mem : (advancePc s).mem = s.mem := rfl
@[simp] theorem advancePc_pc : (advancePc s).pc = s.pc + 1 := rfl
@[simp] theorem advancePc_progLen : (advancePc s).progLen = s.progLen := rfl
@[simp] theorem advancePc_fault : (advancePc s).fault = s.fault := rfl
@[simp] theorem advancePc_reg : (advancePc s).reg i = s.reg i := rfl
@[simp] theorem advancePc_cell : (advancePc s).cell a = s.cell a := rfl

@[simp] theorem placeWord_cfg : (placeWord s w).cfg = s.cfg := rfl
@[simp] theorem placeWord_regs : (placeWord s w).regs = s.regs := rfl
@[simp] theorem placeWord_mem : (placeWord s w).mem = s.mem.write s.pc w.toNat := rfl
@[simp] theorem placeWord_pc : (placeWord s w).pc = s.pc := rfl
@[simp] theorem placeWord_progLen : (placeWord s w).progLen = max s.progLen (s.pc + 1) := rfl
@[simp] theorem placeWord_fault : (placeWord s w).fault = none := rfl
end

/-- A register after a register write. -/
theorem State.setReg_reg (s : State) (i v j : Nat) :
    (s.setReg i v).reg j = if j = i ∧ i < s.regs.length then v else s.reg j := by
  simp only [State.reg, State.setReg_regs, List.getD_eq_getElem?_getD, List.getElem?_set]
  by_cases hij : i = j
  · subst hij
    by_cases hi : i < s.regs.length
    · simp [hi]
    · simp [hi]
  · have : ¬ j = i := fun h => hij h.symm
    simp [hij, this]

/-- A cell after a cell write. -/
theorem State.setCell_cell {s : State} (hm : s.mem.wf = true) (a v b : Nat) :
    (s.setCell a v).cell b = if b = a then v else s.cell b :=
  Memory.read_write hm a v b

end Sys2Proof.Machine
end

