-- ==== Sys2Proof/Laws/Ops.lean ====
section
/-! SUPPORT. One specification lemma for each shared operation: what it answers, and on which condition. -/

namespace Sys2Proof.Machine

@[simp] theorem checkReg_of_lt {s : State} {i : Nat} (name : OperandName) (h : i < s.cfg.regCount) :
    checkReg s name i = .ok () := by
  simp [checkReg, Nat.not_le.mpr h]

@[simp] theorem checkReg_of_le {s : State} {i : Nat} (name : OperandName) (h : s.cfg.regCount ≤ i) :
    checkReg s name i = .error (.outOfBounds .register name i s.cfg.regCount) := by
  simp [checkReg, h]

@[simp] theorem checkAddress_of_lt {s : State} {a : Nat} (form : OperandName) (h : a < s.cfg.memSize) :
    checkAddress s form a = .ok () := by
  simp [checkAddress, Nat.not_le.mpr h]

@[simp] theorem checkAddress_of_le {s : State} {a : Nat} (form : OperandName) (h : s.cfg.memSize ≤ a) :
    checkAddress s form a = .error (.outOfBounds .memory form a s.cfg.memSize) := by
  simp [checkAddress, h]

@[simp] theorem memRead_of_lt {s : State} {a : Nat} (form : OperandName) (h : a < s.cfg.memSize) :
    memRead s form a = .ok (s.cell a) := by
  simp [memRead, h, bind, Except.bind, pure, Except.pure]

@[simp] theorem memRead_of_le {s : State} {a : Nat} (form : OperandName) (h : s.cfg.memSize ≤ a) :
    memRead s form a = .error (.outOfBounds .memory form a s.cfg.memSize) := by
  simp [memRead, h, bind, Except.bind]

@[simp] theorem memWrite_of_lt {s : State} {a : Nat} (form : OperandName) (v : Nat) (h : a < s.cfg.memSize) :
    memWrite s form a v = .ok (.setCell a v) := by
  simp [memWrite, h, bind, Except.bind, pure, Except.pure]

@[simp] theorem memWrite_of_le {s : State} {a : Nat} (form : OperandName) (v : Nat) (h : s.cfg.memSize ≤ a) :
    memWrite s form a v = .error (.outOfBounds .memory form a s.cfg.memSize) := by
  simp [memWrite, h, bind, Except.bind]

@[simp] theorem complete_ok (s : State) (e : Effect) : complete s (.ok e) = .next (applyEffect s e) := rfl
@[simp] theorem complete_error (s : State) (f : FaultInfo) : complete s (.error f) = .next (raise s f) := rfl
@[simp] theorem applyEffect_setReg (s : State) (i v : Nat) : applyEffect s (.setReg i v) = s.setReg i v := rfl
@[simp] theorem applyEffect_setCell (s : State) (a v : Nat) : applyEffect s (.setCell a v) = s.setCell a v := rfl

/-- Everything the end of an instruction can do: one write, or one raised fault. -/
theorem complete_cases {s t : State} {r : Except FaultInfo Effect} (h : complete s r = .next t) :
    (∃ e, r = .ok e ∧ t = applyEffect s e) ∨ (∃ f, r = .error f ∧ t = raise s f) := by
  cases r with
  | ok e => exact .inl ⟨e, rfl, by simpa using h.symm⟩
  | error f => exact .inr ⟨f, rfl, by simpa using h.symm⟩

/-- The end of an instruction is always a next state. -/
theorem complete_is_next (s : State) (r : Except FaultInfo Effect) : ∃ t, complete s r = .next t := by
  cases r <;> exact ⟨_, rfl⟩

end Sys2Proof.Machine
end

