-- ==== Sys2Proof/Laws/Exec.lean ====
section
/-! SUPPORT. One equation for each meaning, as the chain of its checks in order; then, once for all instructions, what an
execution and a step can do. -/

namespace Sys2Proof.Machine

/-- LOAD_CONST as one check and one write. -/
theorem execLoadConst_eq (b c : Nat) (s : State) :
    execLoadConst b c s =
      if s.cfg.regCount ≤ b then .next (raise s (.outOfBounds .register .fieldB b s.cfg.regCount))
      else .next (s.setReg b c) := by
  by_cases hb : s.cfg.regCount ≤ b
  · simp [execLoadConst, hb, bind, Except.bind]
  · simp [execLoadConst, hb, Nat.lt_of_not_le hb, bind, Except.bind, pure, Except.pure, immediate]

/-- READ_MEM as two index checks, one address check and one write. -/
theorem execReadMem_eq (b c d : Nat) (s : State) :
    execReadMem b c d s =
      if s.cfg.regCount ≤ b then .next (raise s (.outOfBounds .register .fieldB b s.cfg.regCount))
      else if s.cfg.regCount ≤ c then .next (raise s (.outOfBounds .register .fieldC c s.cfg.regCount))
      else if s.cfg.memSize ≤ s.reg b + d then
        .next (raise s (.outOfBounds .memory .regBPlusD (s.reg b + d) s.cfg.memSize))
      else .next (s.setReg c (s.cell (s.reg b + d))) := by
  unfold execReadMem offsetAddress
  by_cases hb : s.cfg.regCount ≤ b
  · simp [hb, bind, Except.bind]
  by_cases hc : s.cfg.regCount ≤ c
  · simp [hb, hc, Nat.lt_of_not_le hb, bind, Except.bind]
  by_cases ha : s.cfg.memSize ≤ s.reg b + d
  · simp [hb, hc, ha, Nat.lt_of_not_le hb, Nat.lt_of_not_le hc, bind, Except.bind]
  · simp [hb, hc, ha, Nat.lt_of_not_le hb, Nat.lt_of_not_le hc, Nat.lt_of_not_le ha, bind, Except.bind, pure,
      Except.pure]

/-- WRITE_MEM as one index check, one address check and one write. -/
theorem execWriteMem_eq (b c : Nat) (s : State) :
    execWriteMem b c s =
      if s.cfg.regCount ≤ b then .next (raise s (.outOfBounds .register .fieldB b s.cfg.regCount))
      else if s.cfg.memSize ≤ c then .next (raise s (.outOfBounds .memory .fieldC c s.cfg.memSize))
      else .next (s.setCell c (s.reg b)) := by
  unfold execWriteMem absoluteAddress
  by_cases hb : s.cfg.regCount ≤ b
  · simp [hb, bind, Except.bind]
  by_cases hc : s.cfg.memSize ≤ c
  · simp [hb, hc, Nat.lt_of_not_le hb, bind, Except.bind]
  · simp [hb, hc, Nat.lt_of_not_le hb, Nat.lt_of_not_le hc, bind, Except.bind]

/-- POW as three index checks, two address checks, and the end that the power unit decides. -/
theorem execPow_eq (b c d e : Nat) (s : State) :
    execPow b c d e s =
      if s.cfg.regCount ≤ b then .next (raise s (.outOfBounds .register .fieldB b s.cfg.regCount))
      else if s.cfg.regCount ≤ c then .next (raise s (.outOfBounds .register .fieldC c s.cfg.regCount))
      else if s.cfg.regCount ≤ e then .next (raise s (.outOfBounds .register .fieldE e s.cfg.regCount))
      else if s.cfg.memSize ≤ s.reg e + d then
        .next (raise s (.outOfBounds .memory .regEPlusD (s.reg e + d) s.cfg.memSize))
      else if s.cfg.memSize ≤ s.reg b then .next (raise s (.outOfBounds .memory .regB (s.reg b) s.cfg.memSize))
      else match powResult s.cfg (s.cell (s.reg e + d)) (s.cell (s.reg b)) with
        | .ok r => .next (s.setReg c r)
        | .error f => .next (raise s f) := by
  unfold execPow offsetAddress indirectAddress
  by_cases hb : s.cfg.regCount ≤ b
  · simp [hb, bind, Except.bind]
  have hb' := Nat.lt_of_not_le hb
  by_cases hc : s.cfg.regCount ≤ c
  · simp [hb, hc, hb', bind, Except.bind]
  have hc' := Nat.lt_of_not_le hc
  by_cases he : s.cfg.regCount ≤ e
  · simp [hb, hc, he, hb', hc', bind, Except.bind]
  have he' := Nat.lt_of_not_le he
  by_cases h1 : s.cfg.memSize ≤ s.reg e + d
  · simp [hb, hc, he, h1, hb', hc', he', bind, Except.bind]
  have h1' := Nat.lt_of_not_le h1
  by_cases h2 : s.cfg.memSize ≤ s.reg b
  · simp [hb, hc, he, h1, h2, hb', hc', he', h1', bind, Except.bind]
  have h2' := Nat.lt_of_not_le h2
  cases h : powResult s.cfg (s.cell (s.reg e + d)) (s.cell (s.reg b)) <;>
    simp [hb, hc, he, h1, h2, hb', hc', he', h1', h2', h, bind, Except.bind, pure, Except.pure]

/-- Everything an instruction can do: one write, or one raised fault. -/
theorem exec_cases {i : Instr} {s t : State} (h : exec i s = .next t) :
    (∃ e, t = applyEffect s e) ∨ (∃ f, t = raise s f) := by
  cases i <;> exact (complete_cases h).imp (fun ⟨e, _, he⟩ => ⟨e, he⟩) (fun ⟨f, _, hf⟩ => ⟨f, hf⟩)

/-- The execution of any word ends in a next state, and does one write or raises one fault. -/
theorem executeWord_cases {w : InstrWord} {s t : State} (h : executeWord w s = .next t) :
    (∃ i e, decode w = .instr i ∧ t = applyEffect s e) ∨ (∃ f, t = raise s f) := by
  unfold executeWord at h
  split at h
  · rename_i i hi
    exact (exec_cases h).imp (fun ⟨e, he⟩ => ⟨i, e, hi, he⟩) id
  · exact .inr ((complete_cases h).elim (fun ⟨_, he, _⟩ => by cases he) (fun ⟨f, _, hf⟩ => ⟨f, hf⟩))

/-- Everything a step can do. -/
theorem step_cases {s t : State} (h : step s = .next t) :
    (¬ s.Running ∧ t = s) ∨
    (s.Running ∧ ∃ i e, decode (fetchWord s) = .instr i ∧ t = applyEffect (advancePc s) e) ∨
    (s.Running ∧ ∃ f, t = raise (advancePc s) f) := by
  unfold step at h
  split at h
  · rename_i hr
    exact .inr ((executeWord_cases h).imp (fun h' => ⟨hr, h'⟩) (fun h' => ⟨hr, h'⟩))
  · rename_i hr
    exact .inl ⟨hr, by simpa using h.symm⟩

end Sys2Proof.Machine
end

