-- ==== Sys2Proof/Laws/PerInstr.lean ====
section
/-! SUPPORT. Statements made once for each constructor of `Instr`: the encoder puts the opcode of R69 into field A, and
writes zero into every bit that the format does not use (R71). -/

namespace Sys2Proof.Laws

/-- R61 to R64: field A of the instruction's word is its opcode. -/
def EncodeSelects.Statement (i : Instr) : Prop := fieldA (encode i) = i.opcode

/-- R71: "The assembler always writes them as zero." -/
def EncodeStaysInMask.Statement (i : Instr) : Prop := encode i &&& ~~~ i.usedMask = 0#32

/-- A field placed above the low `n` bits does not reach them. -/
theorem or_shift_mod (acc v o n : Nat) (h : n ≤ o) : (acc ||| (v <<< o)) % 2 ^ n = acc % 2 ^ n := by
  rw [Nat.or_mod_two_pow, Nat.shiftLeft_eq, Nat.mod_eq_zero_of_dvd (Dvd.dvd.mul_left (pow_dvd_pow 2 h) v)]
  simp

/-- Field A of a packed word is its first field, when that one is the opcode's and the others start at bit 5 or above. -/
theorem fieldA_ofNat (n : Nat) : fieldA (BitVec.ofNat 32 n) = n % 2 ^ 5 := by
  simp only [fieldA, unpack, BitVec.toNat_ofNat, Nat.shiftRight_zero]
  exact Nat.mod_mod_of_dvd n (pow_dvd_pow 2 (by norm_num))

/-- A field that ends at or below bit `n`, joined to a number below `2 ^ n`, keeps it there. -/
theorem or_field_lt {acc n : Nat} (v o k : Nat) (ha : acc < 2 ^ n) (hk : o + k ≤ n) :
    acc ||| ((v % 2 ^ k) <<< o) < 2 ^ n := by
  refine Nat.or_lt_two_pow ha ?_
  rw [Nat.shiftLeft_eq]
  calc v % 2 ^ k * 2 ^ o < 2 ^ k * 2 ^ o :=
        Nat.mul_lt_mul_of_pos_right (Nat.mod_lt _ (by positivity)) (by positivity)
    _ = 2 ^ (o + k) := by rw [← pow_add, add_comm]
    _ ≤ 2 ^ n := Nat.pow_le_pow_right (by norm_num) hk

/-- A number below `2 ^ n` has no bit in a mask that starts at bit `n`. -/
theorem and_high_eq_zero {x n : Nat} (k : Nat) (h : x < 2 ^ n) : x &&& (k <<< n) = 0 := by
  refine Nat.eq_of_testBit_eq fun i => ?_
  by_cases hi : n ≤ i
  · have hx : x < 2 ^ i := h.trans_le (Nat.pow_le_pow_right (by norm_num) hi)
    simp [Nat.testBit_lt_two_pow hx]
  · simp [Nat.testBit_shiftLeft, hi]

/-- A word below `2 ^ n` has no bit in a mask that starts at bit `n`. -/
theorem word_and_high {x n k : Nat} {m : InstrWord} (hn : n ≤ 32) (hx : x < 2 ^ n) (hm : m.toNat = k <<< n) :
    BitVec.ofNat 32 x &&& m = 0#32 := by
  refine BitVec.eq_of_toNat_eq ?_
  have hx32 : x < 2 ^ 32 := hx.trans_le (Nat.pow_le_pow_right (by norm_num) hn)
  rw [BitVec.toNat_and, BitVec.toNat_ofNat, Nat.mod_eq_of_lt hx32, hm, and_high_eq_zero k hx]
  rfl

theorem EncodeSelects.loadConst (b c : Nat) : EncodeSelects.Statement (.loadConst b c) := by
  simp only [EncodeSelects.Statement, encode, pack, Instr.fields, List.foldl, fieldA_ofNat]
  rw [or_shift_mod _ _ 12 5 (by norm_num), or_shift_mod _ _ 5 5 (by norm_num)]
  rfl

theorem EncodeSelects.writeMem (b c : Nat) : EncodeSelects.Statement (.writeMem b c) := by
  simp only [EncodeSelects.Statement, encode, pack, Instr.fields, List.foldl, fieldA_ofNat]
  rw [or_shift_mod _ _ 12 5 (by norm_num), or_shift_mod _ _ 5 5 (by norm_num)]
  rfl

theorem EncodeSelects.pow (b c d e : Nat) : EncodeSelects.Statement (.pow b c d e) := by
  simp only [EncodeSelects.Statement, encode, pack, Instr.fields, List.foldl, fieldA_ofNat]
  rw [or_shift_mod _ _ 25 5 (by norm_num), or_shift_mod _ _ 19 5 (by norm_num), or_shift_mod _ _ 12 5 (by norm_num),
    or_shift_mod _ _ 5 5 (by norm_num)]
  rfl

theorem EncodeSelects.readMem (b c d : Nat) : EncodeSelects.Statement (.readMem b c d) := by
  simp only [EncodeSelects.Statement, encode, pack, Instr.fields, List.foldl, fieldA_ofNat]
  rw [or_shift_mod _ _ 19 5 (by norm_num), or_shift_mod _ _ 12 5 (by norm_num), or_shift_mod _ _ 5 5 (by norm_num)]
  rfl

theorem EncodeStaysInMask.loadConst (b c : Nat) : EncodeStaysInMask.Statement (.loadConst b c) := by
  have h0 : 0 ||| ((13 % 2 ^ 5) <<< 0) < 2 ^ 23 := by decide
  have hm : (~~~ 0x007FFFFF#32).toNat = 511 <<< 23 := by decide
  simp only [EncodeStaysInMask.Statement, encode, pack, Instr.fields, Instr.usedMask, List.foldl]
  exact word_and_high (by norm_num)
    (or_field_lt c 12 11 (or_field_lt b 5 7 h0 (by norm_num)) (by norm_num)) hm

theorem EncodeStaysInMask.writeMem (b c : Nat) : EncodeStaysInMask.Statement (.writeMem b c) := by
  have h0 : 0 ||| ((15 % 2 ^ 5) <<< 0) < 2 ^ 26 := by decide
  have hm : (~~~ 0x03FFFFFF#32).toNat = 63 <<< 26 := by decide
  simp only [EncodeStaysInMask.Statement, encode, pack, Instr.fields, Instr.usedMask, List.foldl]
  exact word_and_high (by norm_num)
    (or_field_lt c 12 14 (or_field_lt b 5 7 h0 (by norm_num)) (by norm_num)) hm

theorem EncodeStaysInMask.pow (b c d e : Nat) : EncodeStaysInMask.Statement (.pow b c d e) := by
  simp [EncodeStaysInMask.Statement, Instr.usedMask]

theorem EncodeStaysInMask.readMem (b c d : Nat) : EncodeStaysInMask.Statement (.readMem b c d) := by
  have h0 : 0 ||| ((26 % 2 ^ 5) <<< 0) < 2 ^ 25 := by decide
  have hm : (~~~ 0x01FFFFFF#32).toNat = 127 <<< 25 := by decide
  simp only [EncodeStaysInMask.Statement, encode, pack, Instr.fields, Instr.usedMask, List.foldl]
  exact word_and_high (by norm_num)
    (or_field_lt d 19 6 (or_field_lt c 12 7 (or_field_lt b 5 7 h0 (by norm_num)) (by norm_num)) (by norm_num)) hm

end Sys2Proof.Laws
end

