-- ==== Sys2Proof/Laws/Run.lean ====
section
/-! SUPPORT. The host's run, one step at a time, so that no proof unfolds it, and what holds along it by induction. -/

namespace Sys2Proof.Machine

theorem run_zero (s : State) : Sys2Proof.core.run 0 s = .next s := rfl

/-- One more step before a run, for any machine of the interface. -/
theorem run_succ_of_step (M : Host.Core) (n : Nat) (s t : M.State) (h : M.step s = .next t) :
    M.run (n + 1) s = M.run n t := by
  simp [Host.Core.run, h]

/-- One more step before a run. -/
theorem run_succ {s t : State} (n : Nat) (h : step s = .next t) : Sys2Proof.core.run (n + 1) s = Sys2Proof.core.run n t :=
  run_succ_of_step Sys2Proof.core n s t h

/-- An instruction always answers a next state. -/
theorem exec_is_next (i : Instr) (s : State) : ∃ t, exec i s = .next t := by
  cases i <;> exact complete_is_next _ _

/-- The execution of a word always answers a next state. -/
theorem executeWord_is_next (w : InstrWord) (s : State) : ∃ t, executeWord w s = .next t := by
  unfold executeWord
  split
  · exact exec_is_next _ _
  · exact complete_is_next _ _

/-- The step as a function of states: there is always exactly one. -/
theorem step_is_next (s : State) : ∃ t, step s = .next t := by
  unfold step
  split
  · exact executeWord_is_next _ _
  · exact ⟨s, rfl⟩

/-- A property that every step keeps holds at the end of a run that starts with it. -/
theorem run_induction {P : State → Prop} (hstep : ∀ s t, P s → step s = .next t → P t) (n : Nat) :
    ∀ s t, P s → Sys2Proof.core.run n s = .next t → P t := by
  induction n with
  | zero =>
    intro s t hs h
    rw [run_zero] at h
    cases h
    exact hs
  | succ n ih =>
    intro s t hs h
    obtain ⟨u, hu⟩ := step_is_next s
    rw [run_succ n hu] at h
    exact ih u t (hstep s u hs hu) h

end Sys2Proof.Machine
end

