-- ==== Sys2Proof/Tests/Slice0.lean ====
section
/-! SUPPORT. The model's own tests. Every expected value comes from the spec: a vector of 95_test_vectors.md (E, W, T, P, V
with its number) or the rule named beside the test. Then, for each statement with hypotheses, a witness that meets them. -/

namespace Sys2Proof.Tests

open Sys2Proof Sys2Proof.Machine

/-- The state of an outcome, if it is one. -/
def after (o : Host.Outcome State Fault Refusal) : Option State :=
  match o with
  | .next s => some s
  | _ => none

/-- A small machine: 16 cells, 8 registers, this hardware's width and policy. -/
def small : Config := { memSize := 16, regCount := 8, xlen := 32, powOvf := .fault }

/-- A state with the first registers given and the rest 0. -/
def st (cfg : Config) (regs : List Nat) (mem : Memory) (pc progLen : Nat) : State where
  cfg := cfg
  regs := regs ++ List.replicate (cfg.regCount - regs.length) 0
  mem := mem
  pc := pc
  progLen := progLen
  fault := none

/-! ## Decoding: words written out bit by bit from the tables of R61 to R64 -/

/-- C = 123, B = 0, A = 01101; then W4, every bit but A set. -/
theorem test_decode_load_const :
    decode 0b00000000000001111011000000001101#32 = .instr (.loadConst 0 123) ∧
    decode 0xFFFFFFED#32 = .instr (.loadConst 127 2047) := by decide

/-- D = 5, C = 4, B = 3, A = 11010 (E9); then W6. -/
theorem test_decode_read_mem :
    decode 0b00000000001010000100000001111010#32 = .instr (.readMem 3 4 5) ∧
    decode 0xFFFFFFFA#32 = .instr (.readMem 127 127 63) := by decide

/-- C = 300, B = 7, A = 01111 (E14); then W7. -/
theorem test_decode_write_mem :
    decode 0b00000000000100101100000011101111#32 = .instr (.writeMem 7 300) ∧
    decode 0xFFFFFFEF#32 = .instr (.writeMem 127 16383) := by decide

/-- E = 4, D = 3, C = 2, B = 1, A = 10110 (E19); then W3, the top bit of E. -/
theorem test_decode_pow :
    decode 0b00001000000110000010000000110110#32 = .instr (.pow 1 2 3 4) ∧
    decode 0x80000016#32 = .instr (.pow 0 0 0 64) := by decide

/-- W10 to W15: the neighbours of the four opcodes, and the all-zero and all-ones words. -/
theorem test_decode_unknown :
    decode 0x00000000#32 = .unknown 0 ∧ decode 0xFFFFFFFF#32 = .unknown 31 ∧ decode 0x0007B00E#32 = .unknown 14 ∧
    decode 0x0000000C#32 = .unknown 12 ∧ decode 0x00000017#32 = .unknown 23 ∧ decode 0x0000001B#32 = .unknown 27 := by
  decide

/-- E4, E11, E16, E20: the largest operands, encoded. -/
theorem test_encode_largest :
    encode (.loadConst 31 2047) = 0x007FF3ED#32 ∧ encode (.readMem 127 127 63) = 0x01FFFFFA#32 ∧
    encode (.writeMem 127 16383) = 0x03FFFFEF#32 ∧ encode (.pow 127 127 63 127) = 0xFFFFFFF6#32 := by decide

/-- E8, E15, E18, E6: operands of every field, and one that is cut to its field. -/
theorem test_encode_fields :
    encode (.readMem 2 1 0) = 0x0000105A#32 ∧ encode (.writeMem 12 800) = 0x0032018F#32 ∧
    encode (.pow 11 12 0 10) = 0x1400C176#32 ∧ encode (.loadConst 3 5000) = 0x0038806D#32 := by decide

/-- V1's instances of `unpack` after `pack`. -/
theorem test_pack_unpack :
    pack [⟨5000, 12, 11⟩] = 0x00388000#32 ∧ unpack 0x00388000#32 12 11 = 904 ∧
    pack [⟨0xFFFFFFFF, 25, 7⟩] = 0xFE000000#32 ∧ unpack 0xFE000000#32 25 7 = 127 := by decide

/-- The rows of spec/opcode_table.json with every operand 0. -/
theorem test_decode_table_rows :
    decodeTableWord 32 0x0D = some (.loadConst 0 0) ∧ decodeTableWord 32 0x0F = some (.writeMem 0 0) ∧
    decodeTableWord 32 0x16 = some (.pow 0 0 0 0) ∧ decodeTableWord 32 0x1A = some (.readMem 0 0 0) ∧
    decodeTableWord 32 0x1F = none := by decide

/-! ## Well-formedness refuses an operand that is too wide (R61 to R64) -/

theorem test_ill_formed_register : Instr.wellFormed (.loadConst 128 0) = false ∧
    Instr.wellFormed (.writeMem 128 0) = false ∧ Instr.wellFormed (.readMem 128 0 0) = false ∧
    Instr.wellFormed (.readMem 0 128 0) = false ∧ Instr.wellFormed (.pow 128 0 0 0) = false ∧
    Instr.wellFormed (.pow 0 128 0 0) = false ∧ Instr.wellFormed (.pow 0 0 0 128) = false := by decide

theorem test_ill_formed_constant : Instr.wellFormed (.loadConst 0 2048) = false := by decide

theorem test_ill_formed_address : Instr.wellFormed (.writeMem 0 16384) = false := by decide

theorem test_ill_formed_offset :
    Instr.wellFormed (.readMem 0 0 64) = false ∧ Instr.wellFormed (.pow 0 0 64 0) = false := by decide

theorem test_well_formed_largest :
    Instr.wellFormed (.loadConst 127 2047) = true ∧ Instr.wellFormed (.writeMem 127 16383) = true ∧
    Instr.wellFormed (.readMem 127 127 63) = true ∧ Instr.wellFormed (.pow 127 127 63 127) = true := by decide

/-! ## Load -/

/-- T60, T62, T65: the two load faults and their order. -/
theorem test_load_faults :
    load Config.default [0x0D, 0xB0, 0x07, 0x00, 0x0F] = .fault (.alignmentError 5) ∧
    load { Config.default with memSize := 2 } (List.replicate 12 0) = .fault (.sizeError 3 2) ∧
    load { Config.default with memSize := 2 } (List.replicate 13 0) = .fault (.alignmentError 13) := ⟨rfl, rfl, rfl⟩

/-- T66, T67: one word, and the same bytes in the other order. -/
theorem test_load_byte_order :
    (after (load Config.default [0x0D, 0xB0, 0x07, 0x00])).map (fun s => (s.cell 0, s.progLen)) = some (0x0007B00D, 1) ∧
    (after (load Config.default [0x00, 0x07, 0xB0, 0x0D])).map (·.cell 0) = some 0x0DB00700 := by decide

/-- T63: a program that fills memory exactly runs to its end. -/
theorem test_load_full_memory :
    (after (load { Config.default with memSize := 2 } [0x0D, 0x10, 0, 0, 0x2D, 0x20, 0, 0])).bind
      (fun s => (after (runToEnd s)).map fun t => (t.reg 0, t.reg 1, t.pc, t.status)) = some (1, 2, 2, .halted) := by
  decide

/-! ## One step of each instruction -/

/-- T10: LOAD_CONST,0,123 as the first step after reset. -/
theorem test_step_load_const :
    (after (step (State.reset.withFetchWord 32 0x0007B00D))).map (fun s => (s.reg 0, s.pc, s.fault)) =
      some (123, 1, none) := by decide

/-- T13: register 32 of 32. -/
theorem test_step_load_const_fault :
    (after (step (State.reset.withFetchWord 32 0x0000140D))).map (fun s => (s.fault, s.pc)) =
      some (some ⟨.outOfBounds .register .fieldB 32 32, 0⟩, 1) := by decide

/-- T20: READ_MEM,0,0,0 reads its own word. -/
theorem test_step_read_mem :
    (after (step (State.reset.withFetchWord 32 0x0000001A))).map (fun s => (s.reg 0, s.pc)) = some (26, 1) := by decide

/-- R122: with `x[5] = 2`, `mem[2] = 7`, READ_MEM,5,5,0 leaves `x[5] = 7`; T25: address 16 of 16 faults. -/
theorem test_read_mem_same_register_and_fault :
    (after (exec (.readMem 5 5 0) (st small [0, 0, 0, 0, 0, 2] [(2, 7)] 1 1))).map (·.reg 5) = some 7 ∧
    (after (exec (.readMem 1 2 1) (st small [0, 15] [] 2 2))).map (·.fault) =
      some (some ⟨.outOfBounds .memory .regBPlusD 16 16, 1⟩) := by decide

/-- T32: the last cell; T31: storing 0 takes the cell off the list. -/
theorem test_write_mem :
    (after (exec (.writeMem 0 15) (st small [7] [(3, 1)] 1 1))).map (·.mem) = some [(3, 1), (15, 7)] ∧
    (after (exec (.writeMem 0 3) (st small [] [(3, 1)] 1 1))).map (·.mem) = some [] := by decide

/-- T33: address 16 of 16. -/
theorem test_write_mem_fault :
    (after (exec (.writeMem 0 16) (st small [7] [] 2 2))).map (·.fault) =
      some (some ⟨.outOfBounds .memory .fieldC 16 16, 1⟩) := by decide

/-- V7 in small: `x[1] = 6`, `x[2] = 7`, `mem[6] = 2`, `mem[7] = 3`; POW,2,3,0,1 gives 8, not 9; T56: one register. -/
theorem test_pow :
    (after (exec (.pow 2 3 0 1) (st small [0, 6, 7] [(6, 2), (7, 3)] 1 1))).map (·.reg 3) = some 8 ∧
    (after (exec (.pow 1 1 0 1) (st small [0, 5] [(5, 3)] 1 1))).map (·.reg 1) = some 27 := by decide

/-- T51 under the three policies: 3 ^ 21. -/
theorem test_pow_overflow :
    (after (exec (.pow 2 3 0 1) (st small [0, 6, 7] [(6, 3), (7, 21)] 7 8))).map (fun s => (s.fault, s.reg 3)) =
      some (some ⟨.powOverflow 3 21, 6⟩, 0) ∧
    (after (exec (.pow 2 3 0 1) (st { small with powOvf := .wrap } [0, 6, 7] [(6, 3), (7, 21)] 7 8))).map (·.reg 3) =
      some 1870418611 ∧
    (after (exec (.pow 2 3 0 1) (st { small with powOvf := .saturate } [0, 6, 7] [(6, 3), (7, 21)] 7 8))).map (·.reg 3) =
      some 4294967295 := by decide

/-- T71: the all-ones word. -/
theorem test_step_illegal :
    (after (step (State.reset.withFetchWord 32 0xFFFFFFFF))).map (fun s => (s.fault, s.pc)) =
      some (some ⟨.unknownOpcode 31 0xFFFFFFFF#32, 0⟩, 1) := by decide

/-- R43: a dump's range is inclusive at both ends, each address with its word. -/
theorem test_dump : dump (st small [] [(3, 7), (4, 9), (5, 8)] 1 1) 3 4 = [(3, 7), (4, 9)] := by decide

/-! ## Witnesses: for each statement with hypotheses, data that meet them, clause by clause -/

/-- DecodeFollowsMatchAndMask, FourOfThirtyTwoOpcodes: a word for each clause. -/
theorem witness_opcode_clauses :
    0x0007B00D#32 &&& 0x1F#32 = 0x0D#32 ∧ 0x03FFFFEF#32 &&& 0x1F#32 = 0x0F#32 ∧ 0xFFFFFFF6#32 &&& 0x1F#32 = 0x16#32 ∧
    0x01FFFFFA#32 &&& 0x1F#32 = 0x1A#32 ∧
    (0xFFFFFFFF#32 &&& 0x1F#32 ≠ 0x0D#32 ∧ 0xFFFFFFFF#32 &&& 0x1F#32 ≠ 0x0F#32 ∧ 0xFFFFFFFF#32 &&& 0x1F#32 ≠ 0x16#32 ∧
      0xFFFFFFFF#32 &&& 0x1F#32 ≠ 0x1A#32) ∧
    fieldA 0x0007B00E#32 ∉ [13, 15, 22, 26] ∧ decode 0x0007B00D#32 = .instr (.loadConst 0 123) := by decide

/-- UnusedBitsAreIgnored: two words that differ in every unused bit and in no other, for each format. -/
theorem witness_unused_bits :
    (fieldA 0x0007B00D#32 = 13 ∧ 0x0007B00D#32 &&& 0x007FFFFF#32 = 0xFF87B00D#32 &&& 0x007FFFFF#32) ∧
    (fieldA 0x0000001A#32 = 26 ∧ 0x0000001A#32 &&& 0x01FFFFFF#32 = 0xFE00001A#32 &&& 0x01FFFFFF#32) ∧
    (fieldA 0x0006400F#32 = 15 ∧ 0x0006400F#32 &&& 0x03FFFFFF#32 = 0xFC06400F#32 &&& 0x03FFFFFF#32) := by decide

/-- DecodeEncodeRoundTrip, EncodeOfDecodedIsTheWord: the largest operands, and a word with its unused bits set. -/
theorem witness_round_trip :
    Instr.wellFormed (.pow 127 127 63 127) = true ∧ decode 0xFFFFFFED#32 = .instr (.loadConst 127 2047) := by decide

/-- AssemblerWordsAndBytes: the last row of a program and the last byte of a word. -/
theorem witness_assembler : [Instr.loadConst 0 1, .writeMem 0 5][1]? = some (.writeMem 0 5) ∧ 3 < 4 := by decide

/-- UnpackAfterPack: the field that ends at bit 31, and the field that is the whole word. -/
theorem witness_unpack : (1 ≤ 7 ∧ 7 + 25 ≤ 32) ∧ (1 ≤ 32 ∧ 32 + 0 ≤ 32) := by decide

/-- LoadEstablishesTheState, LoadChecksInOrder (its three clauses), at the boundary `n = MEM_SIZE`. -/
theorem witness_load :
    Config.Valid { small with memSize := 2 } ∧ (List.replicate 8 (0x0D : Byte)).length % 4 = 0 ∧
    (List.replicate 8 (0x0D : Byte)).length / 4 ≤ 2 ∧ (List.replicate 13 (0 : Byte)).length % 4 ≠ 0 ∧
    (List.replicate 12 (0 : Byte)).length % 4 = 0 ∧ 2 < (List.replicate 12 (0 : Byte)).length / 4 := by decide

/-- EmptyProgramHaltsAtOnce at the smallest configuration; BadConfigurationIsRefused just below each bound. -/
theorem witness_configuration :
    Config.Valid ⟨1, 1, 32, .fault⟩ ∧ ¬ Config.Valid ⟨0, 1, 32, .fault⟩ ∧ ¬ Config.Valid ⟨1, 0, 32, .fault⟩ ∧
    ¬ Config.Valid ⟨1, 1, 31, .fault⟩ := by decide

/-- The loaded state that the witnesses over runs start from: LOAD_CONST,0,1 and an illegal word. -/
def twoWords : List Byte := [0x0D, 0x10, 0, 0, 0, 0, 0, 0]

/-- LoadedStateIsSound, EveryValueFitsInACell, UnnamedRegistersStayZero, RunEndsWithinProgLen, ExecuteObservesTheEnd: a
stream that loads, and its run of two steps. -/
theorem witness_loaded_run :
    load small twoWords = .next (st small [] [(0, 4109)] 0 2) ∧
    Sys2Proof.core.run 2 (st small [] [(0, 4109)] 0 2) =
      .next { st small [1] [(0, 4109)] 2 2 with fault := some ⟨.unknownOpcode 0 0#32, 1⟩ } := ⟨rfl, rfl⟩

/-- StepKeepsTheInvariant, StatusFollowsPcAndLatch, ObservationShowsAllButProgLen: a sound running state and its step. -/
theorem witness_invariant :
    (st small [4294967295] [(0, 4109), (15, 4294967295)] 0 2).Inv ∧
    step (st small [4294967295] [(0, 4109), (15, 4294967295)] 0 2) =
      .next (st small [1] [(0, 4109), (15, 4294967295)] 1 2) :=
  ⟨by constructor <;> decide, rfl⟩

/-- StatusFollowsPcAndLatch, NoStepAfterTheEnd: running, halted with `pc = PROG_LEN` and sound, faulted. -/
theorem witness_statuses :
    (st small [] [] 0 1).status = .running ∧ (st small [] [] 1 1).status = .halted ∧ (st small [] [] 1 1).Inv ∧
    (raise (st small [] [] 1 1) (.powOverflow 2 32)).status = .faulted :=
  ⟨by decide, by decide, by constructor <;> decide, by decide⟩

/-- StepRunsTheDecodedInstruction (its last cell of memory) and IllegalWordFaults (a cell that nothing wrote). -/
theorem witness_step :
    ((st small [] [(15, 4109)] 15 16).fault = none ∧ 15 < 16 ∧
      decode (BitVec.ofNat 32 ((st small [] [(15, 4109)] 15 16).cell 15)) = .instr (.loadConst 0 1)) ∧
    ((st small [] [] 0 1).fault = none ∧ 0 < 1 ∧ fieldA (fetchWord (st small [] [] 0 1)) ∉ [13, 15, 22, 26]) := by
  decide

/-- FaultingStepIsPrecise, NegativeExponentIsNeverRaised: a running state whose step faults. -/
theorem witness_faulting_step :
    (st small [] [(0, 0x110D)] 0 1).fault = none ∧
    step (st small [] [(0, 0x110D)] 0 1) =
      .next { st small [] [(0, 0x110D)] 1 1 with fault := some ⟨.outOfBounds .register .fieldB 8 8, 0⟩ } :=
  ⟨rfl, rfl⟩

/-- FaultMatrixIsComplete: a fault of each instruction, and an illegal word; its last clause is `witness_invariant`'s. -/
theorem witness_fault_matrix :
    ((after (exec (.loadConst 8 0) (st small [] [] 1 1))).bind (·.fault)).isSome ∧
    ((after (exec (.readMem 0 8 0) (st small [] [] 1 1))).bind (·.fault)).isSome ∧
    ((after (exec (.writeMem 0 16) (st small [] [] 1 1))).bind (·.fault)).isSome ∧
    ((after (exec (.pow 1 2 0 0) (st small [3, 4] [(3, 2), (4, 32)] 1 1))).bind (·.fault)).isSome ∧
    decode 0x00000000#32 = .unknown 0 := by decide

/-- OneWriteOrOneFault, NoFaultExactlyWhenChecksPass, LoadConstResult, ReadMemResult, WriteMemResult,
PowWritesTheExactPower, PowChecksInOrder: the state conditions. -/
theorem witness_exec_state :
    (st Config.default [1, 2] [(3, 4)] 1 1).regs.length = Config.default.regCount ∧
    (st Config.default [1, 2] [(3, 4)] 1 1).mem.wf = true ∧ 1 ≤ Config.default.xlen ∧
    (st Config.default [1, 2] [(3, 4)] 1 1).fault = none := by decide

/-- LoadConstResult, ReadMemResult, WriteMemResult: each clause at the boundary of its operand. -/
theorem witness_operand_bounds :
    7 < small.regCount ∧ small.regCount ≤ 8 ∧ Config.default.regCount = 32 ∧
    (st small [15] [] 1 1).reg 0 + 0 < small.memSize ∧ small.memSize ≤ (st small [15] [] 1 1).reg 0 + 1 ∧
    15 < small.memSize ∧ small.memSize ≤ 16 := by decide

/-- ReadMemResult, WriteMemResult, PowWritesTheExactPower: the states of the example words (R120, R124, R140). -/
theorem witness_examples :
    ((st Config.default [0, 0, 100] [(100, 123)] 1 1).reg 2 = 100 ∧
      (st Config.default [0, 0, 100] [(100, 123)] 1 1).cell 100 = 123) ∧
    (st Config.default [123] [] 1 1).reg 0 = 123 ∧
    ((st Config.default [0, 0, 0, 0, 0, 0, 0, 0, 0, 0, 600, 700] [(600, 2), (700, 3)] 1 1).reg 10 = 600 ∧
      (st Config.default [0, 0, 0, 0, 0, 0, 0, 0, 0, 0, 600, 700] [(600, 2), (700, 3)] 1 1).reg 11 = 700 ∧
      (st Config.default [0, 0, 0, 0, 0, 0, 0, 0, 0, 0, 600, 700] [(600, 2), (700, 3)] 1 1).cell 600 = 2 ∧
      (st Config.default [0, 0, 0, 0, 0, 0, 0, 0, 0, 0, 600, 700] [(600, 2), (700, 3)] 1 1).cell 700 = 3) ∧
    8 ≤ Config.default.cellMax ∧ 12 < Config.default.regCount ∧ 700 < Config.default.memSize := by decide

/-- PowWritesTheExactPower: the largest exact power of 65535 that fits; PowOverflowPolicies: the first of 2 that does not, at
the last cell of memory, in each policy. -/
theorem witness_pow :
    (st small [14, 15] [(14, 65535), (15, 2)] 1 1).cell 14 ^ (st small [14, 15] [(14, 65535), (15, 2)] 1 1).cell 15 ≤
      small.cellMax ∧
    small.cellMax < (st small [14, 15] [(14, 2), (15, 32)] 1 1).cell ((st small [14, 15] [(14, 2), (15, 32)] 1 1).reg 0 + 0) ^
      (st small [14, 15] [(14, 2), (15, 32)] 1 1).cell ((st small [14, 15] [(14, 2), (15, 32)] 1 1).reg 1) ∧
    small.powOvf = .fault ∧ Config.cellMax { small with powOvf := .wrap } = small.cellMax ∧
    Config.cellMax { small with powOvf := .saturate } = small.cellMax := by decide

/-- PowChecksInOrder: operand 1 at the first address out of range while operand 2 is in range, and the other way round. -/
theorem witness_pow_addresses :
    (small.memSize ≤ (st small [15, 16] [] 1 1).reg 0 + 1 ∧ (st small [15, 16] [] 1 1).reg 0 < small.memSize) ∧
    ((st small [15, 16] [] 1 1).reg 0 + 0 < small.memSize ∧ small.memSize ≤ (st small [15, 16] [] 1 1).reg 1) := by decide

/-- StoreIntoTheProgram: a WRITE_MEM at address 1 of a program of 4 words; `a` at and beyond it (1, 4). -/
theorem witness_store_into_program :
    (st small [5] [(1, 0x0000100F)] 1 4).Inv ∧ (st small [5] [(1, 0x0000400F)] 1 4).Inv ∧
    decode (fetchWord (st small [5] [(1, 0x0000100F)] 1 4)) = .instr (.writeMem 0 1) ∧
    decode (fetchWord (st small [5] [(1, 0x0000400F)] 1 4)) = .instr (.writeMem 0 4) :=
  ⟨by constructor <;> decide, by constructor <;> decide, by decide, by decide⟩

/-- StoreIntoTheProgram, the clause ahead of the instruction (2 < 3 < 4): the word of LOAD_CONST,0,2 is stored into cell 3,
LOAD_CONST,1,1 is the only step in between, and then the machine runs at 3. -/
theorem witness_store_ahead :
    (st small [0x200D] [(1, 0x300F), (2, 0x102D)] 1 4).Inv ∧
    decode (fetchWord (st small [0x200D] [(1, 0x300F), (2, 0x102D)] 1 4)) = .instr (.writeMem 0 3) ∧
    step (st small [0x200D] [(1, 0x300F), (2, 0x102D)] 1 4) =
      .next (st small [0x200D] [(1, 0x300F), (2, 0x102D), (3, 0x200D)] 2 4) ∧
    decode (fetchWord (st small [0x200D] [(1, 0x300F), (2, 0x102D), (3, 0x200D)] 2 4)) = .instr (.loadConst 1 1) ∧
    Sys2Proof.core.run 1 (st small [0x200D] [(1, 0x300F), (2, 0x102D), (3, 0x200D)] 2 4) =
      .next (st small [0x200D, 1] [(1, 0x300F), (2, 0x102D), (3, 0x200D)] 3 4) ∧
    (st small [0x200D, 1] [(1, 0x300F), (2, 0x102D), (3, 0x200D)] 3 4).status = .running :=
  ⟨by constructor <;> decide, by decide, rfl, by decide, rfl, by decide⟩

/-- OnlyWriteMemStores: a step that changes a cell; EveryStepAdvancesByOne and TerminationBoundaryIsFixed run it. -/
theorem witness_store :
    (st small [5] [(0, 0x0000F00F)] 0 1).mem.wf = true ∧
    step (st small [5] [(0, 0x0000F00F)] 0 1) = .next (st small [5] [(0, 0x0000F00F), (15, 5)] 1 1) ∧
    (st small [5] [(0, 0x0000F00F), (15, 5)] 1 1).cell 15 ≠ (st small [5] [(0, 0x0000F00F)] 0 1).cell 15 ∧
    Sys2Proof.core.run 1 (st small [5] [(0, 0x0000F00F)] 0 1) = .next (st small [5] [(0, 0x0000F00F), (15, 5)] 1 1) :=
  ⟨by decide, rfl, by decide, rfl⟩

/-- UnnamedRegistersStayZero: register 128 exists in a file of 129. -/
theorem witness_unnamed_register :
    load ⟨16, 129, 32, .fault⟩ [] = .next (loadedState ⟨16, 129, 32, .fault⟩ []) ∧
    128 < (loadedState ⟨16, 129, 32, .fault⟩ []).regs.length := ⟨rfl, by simp [loadedState]⟩

/-- InstructionsSeeNoPcOrProgLen, SafeRunsAreThoseThatComplete, FaultPolicyAgreesWithWiderCells: an execution and a run that
end without a fault. -/
theorem witness_unfaulted :
    exec (.loadConst 0 1) (st small [] [(0, 4109)] 1 1) = .next (st small [1] [(0, 4109)] 1 1) ∧
    (st small [] [(0, 4109)] 0 1).Inv ∧
    Sys2Proof.core.run 1 (st small [] [(0, 4109)] 0 1) = .next (st small [1] [(0, 4109)] 1 1) ∧
    (st small [1] [(0, 4109)] 1 1).Completed ∧ small.powOvf = .fault ∧ 1 ≤ small.xlen ∧ small.xlen ≤ 64 :=
  ⟨rfl, by constructor <;> decide, rfl, ⟨rfl, by decide⟩, rfl, by decide, by decide⟩

/-- LoadAfterStore: the last cell, reached through register and offset. -/
theorem witness_load_after_store :
    (st small [5, 10] [] 1 1).regs.length = small.regCount ∧ (st small [5, 10] [] 1 1).mem.wf = true ∧
    0 < small.regCount ∧ 1 < small.regCount ∧ 7 < small.regCount ∧ 15 < small.memSize ∧
    (st small [5, 10] [] 1 1).reg 1 + 5 = 15 := by decide

/-- PowerUnitIsExact at the narrowest width it speaks of. -/
theorem witness_power_unit : 1 ≤ 1 ∧ powFits 1 1 0 = some 1 ∧ powFits 1 2 1 = none := by decide

end Sys2Proof.Tests
end

/-! # The state: the invariant, what load establishes, what a step keeps, what an observation shows -/

namespace Sys2Proof

/-! ## Cells, instructions and streams -/

/-- A number below `2 ^ n` fits in every cell of `n` bits or more. -/
theorem Config.le_cellMax_of_lt {c : Config} {n v : Nat} (hn : n ≤ c.xlen) (hv : v < 2 ^ n) : v ≤ c.cellMax := by
  have hpow : 2 ^ n ≤ 2 ^ c.xlen := Nat.pow_le_pow_right (by decide) hn
  unfold Config.cellMax
  omega

/-- R65, R68: what the decoder answers is well-formed: every operand is a field of its width. -/
theorem wellFormed_of_decode {w : InstrWord} {i : Instr} (h : decode w = .instr i) : i.wellFormed = true := by
  rcases decode_cases w with ⟨-, hd⟩ | ⟨-, hd⟩ | ⟨-, hd⟩ | ⟨-, hd⟩ | ⟨-, hd⟩ <;> rw [hd] at h <;> cases h
  · exact (wellFormed_loadConst _ _).mpr ⟨unpack_lt w 5 7, unpack_lt w 12 11⟩
  · exact (wellFormed_writeMem _ _).mpr ⟨unpack_lt w 5 7, unpack_lt w 12 14⟩
  · exact (wellFormed_pow _ _ _ _).mpr ⟨unpack_lt w 5 7, unpack_lt w 12 7, unpack_lt w 19 6, unpack_lt w 25 7⟩
  · exact (wellFormed_readMem _ _ _).mpr ⟨unpack_lt w 5 7, unpack_lt w 12 7, unpack_lt w 19 6⟩

/-- R201: four bytes make a word, and an incomplete chunk at the end makes none. -/
theorem wordsOfBytes_length (bytes : List Byte) : (wordsOfBytes bytes).length = bytes.length / 4 := by
  induction bytes using wordsOfBytes.induct with
  | case1 b0 b1 b2 b3 rest ih =>
    simp only [wordsOfBytes, List.length_cons, ih]
    omega
  | case2 bytes hshort =>
    match bytes, hshort with
    | [], _ | [_], _ | [_, _], _ | [_, _, _], _ => simp [wordsOfBytes]
    | b0 :: b1 :: b2 :: b3 :: rest, hshort => exact absurd rfl (hshort b0 b1 b2 b3 rest)

end Sys2Proof

namespace Sys2Proof.Machine

/-! ## The bound `CELL_MAX` of the power unit (R35) -/

/-- R147: the loop that multiplies within a bound answers nothing above the bound. -/
theorem mulWithin_le {cellMax base n p r : Nat} (hp : p ≤ cellMax) (h : mulWithin cellMax base n p = some r) :
    r ≤ cellMax := by
  induction n generalizing p with
  | zero =>
    obtain rfl : p = r := by simpa [mulWithin] using h
    exact hp
  | succ n ih =>
    by_cases hover : cellMax < p * base
    · simp [mulWithin, hover] at h
    · exact ih (Nat.le_of_not_lt hover) (by simpa [mulWithin, hover] using h)

/-- R147: every product of square-and-multiply is reduced, so the result stays below the modulus. -/
theorem powModLoop_lt {m acc : Nat} (fuel base exp : Nat) (h : acc < m) : powModLoop m fuel base exp acc < m := by
  induction fuel generalizing base exp acc with
  | zero => exact h
  | succ fuel ih =>
    unfold powModLoop
    split
    · exact h
    · refine ih _ _ ?_
      split
      · exact Nat.mod_lt _ (by omega)
      · exact h

theorem powMod_lt {m : Nat} (op1 op2 : Nat) (hm : 0 < m) : powMod m op1 op2 < m :=
  powModLoop_lt _ _ _ (Nat.mod_lt _ hm)

/-- R143: a power that the unit calls exact fits in a cell. -/
theorem powFits_le {c : Config} {op1 op2 r : Nat} (hx : 1 ≤ c.xlen) (h : powFits c.xlen op1 op2 = some r) :
    r ≤ c.cellMax := by
  have hone : 1 ≤ c.cellMax := Config.le_cellMax_of_lt hx (by decide)
  unfold powFits at h
  split at h
  · obtain rfl : 1 = r := by simpa using h
    exact hone
  · split at h
    · obtain rfl : op1 = r := by simpa using h
      omega
    · split at h
      · cases h
      · exact mulWithin_le hone h

/-- R146: whatever the policy, the value that POW writes fits in a cell. -/
theorem powResult_le {c : Config} {op1 op2 r : Nat} (hx : 1 ≤ c.xlen) (h : powResult c op1 op2 = .ok r) :
    r ≤ c.cellMax := by
  unfold powResult at h
  split at h
  · next fits =>
    cases h
    exact powFits_le hx fits
  · split at h
    · cases h
    · cases h
      exact Config.le_cellMax_of_lt le_rfl (powMod_lt op1 op2 (by positivity))
    · cases h
      exact le_rfl

/-! ## What keeps the invariant -/

section
variable {s : State} (hs : s.Inv)
include hs

theorem State.Inv.reg_le (i : Nat) : s.reg i ≤ s.cfg.cellMax := by
  by_cases hi : i < s.regs.length
  · simpa [State.reg, hi] using hs.regs_le _ (List.getElem_mem hi)
  · simp [State.reg, hi]

theorem State.Inv.cell_le (a : Nat) : s.cell a ≤ s.cfg.cellMax := Memory.read_le hs.mem_le a

theorem State.Inv.setReg {v : Nat} (i : Nat) (hv : v ≤ s.cfg.cellMax) : (s.setReg i v).Inv :=
  { hs with
    regs_length := by simpa using hs.regs_length
    regs_le := fun u hu => (List.mem_or_eq_of_mem_set hu).elim (hs.regs_le u) fun h => h ▸ hv }

theorem State.Inv.setCell {a v : Nat} (ha : a < s.cfg.memSize) (hv : v ≤ s.cfg.cellMax) : (s.setCell a v).Inv :=
  { hs with
    mem_wf := Memory.wf_write a v hs.mem_wf
    mem_addr := fun p hp => (Memory.mem_of_mem_write hp).elim (fun h => h ▸ ha) (hs.mem_addr p)
    mem_le := fun p hp => (Memory.mem_of_mem_write hp).elim (fun h => h ▸ hv) (hs.mem_le p) }

/-- R170: the index of a raised fault is one below `pc`, which is never 0 where an instruction executes. -/
theorem State.Inv.raise (info : FaultInfo) (hpc : 1 ≤ s.pc) : (raise s info).Inv :=
  { hs with
    fault_index := by
      rintro r ⟨⟩
      exact Nat.sub_add_cancel hpc }

/-- R94: the increment stays within `PROG_LEN`, because a running machine has not reached it. -/
theorem State.Inv.advancePc (hr : s.Running) : (advancePc s).Inv :=
  { hs with
    pc_le := hr.2
    fault_index := fun r hrec => by simp [hr.1] at hrec }

/-- R169: a check of an instruction either raises its fault, which keeps the invariant, or leaves the rest to do. -/
theorem State.Inv.of_check {failed : Prop} [Decidable failed] {info : FaultInfo} {t : State}
    {rest : Host.Outcome State Fault Refusal} (hpc : 1 ≤ s.pc)
    (h : (if failed then .next (Machine.raise s info) else rest) = .next t)
    (hrest : ¬ failed → rest = .next t → t.Inv) : t.Inv := by
  split at h
  · cases h
    exact hs.raise info hpc
  · next passed => exact hrest passed h

theorem State.Inv.execLoadConst {b c : Nat} {t : State} (hpc : 1 ≤ s.pc) (hc : c < 2 ^ 11)
    (h : execLoadConst b c s = .next t) : t.Inv := by
  obtain ⟨-, -, hxlen⟩ := hs.cfg_valid
  rw [execLoadConst_eq] at h
  refine hs.of_check hpc h fun _ hwrite => ?_
  cases hwrite
  exact hs.setReg b (Config.le_cellMax_of_lt (by omega) hc)

theorem State.Inv.execReadMem {b c d : Nat} {t : State} (hpc : 1 ≤ s.pc) (h : execReadMem b c d s = .next t) :
    t.Inv := by
  rw [execReadMem_eq] at h
  refine hs.of_check hpc h fun _ h => hs.of_check hpc h fun _ h => hs.of_check hpc h fun _ hwrite => ?_
  cases hwrite
  exact hs.setReg c (hs.cell_le _)

theorem State.Inv.execWriteMem {b c : Nat} {t : State} (hpc : 1 ≤ s.pc) (h : execWriteMem b c s = .next t) :
    t.Inv := by
  rw [execWriteMem_eq] at h
  refine hs.of_check hpc h fun _ h => hs.of_check hpc h fun hc hwrite => ?_
  cases hwrite
  exact hs.setCell (Nat.lt_of_not_le hc) (hs.reg_le b)

theorem State.Inv.execPow {b c d e : Nat} {t : State} (hpc : 1 ≤ s.pc) (h : execPow b c d e s = .next t) :
    t.Inv := by
  obtain ⟨-, -, hxlen⟩ := hs.cfg_valid
  rw [execPow_eq] at h
  refine hs.of_check hpc h fun _ h => hs.of_check hpc h fun _ h => hs.of_check hpc h fun _ h =>
    hs.of_check hpc h fun _ h => hs.of_check hpc h fun _ hend => ?_
  split at hend
  · next hpow =>
    cases hend
    exact hs.setReg c (powResult_le (by omega) hpow)
  · cases hend
    exact hs.raise _ hpc

/-- R66: of an instruction's operands, the constant of LOAD_CONST alone becomes a value, and must fit its field. -/
theorem State.Inv.exec {i : Instr} {t : State} (hpc : 1 ≤ s.pc) (hi : i.wellFormed = true) (h : exec i s = .next t) :
    t.Inv := by
  cases i with
  | loadConst b c => exact hs.execLoadConst hpc ((wellFormed_loadConst b c).mp hi).2 h
  | writeMem b c => exact hs.execWriteMem hpc h
  | pow b c d e => exact hs.execPow hpc h
  | readMem b c d => exact hs.execReadMem hpc h

theorem State.Inv.executeWord {w : InstrWord} {t : State} (hpc : 1 ≤ s.pc) (h : executeWord w s = .next t) :
    t.Inv := by
  unfold Machine.executeWord at h
  split at h
  · next hw => exact hs.exec hpc (wellFormed_of_decode hw) h
  · cases h
    exact hs.raise _ hpc

/-- Fetch, increment and execution keep the invariant; a machine that has ended does not change. -/
theorem State.Inv.step {t : State} (h : step s = .next t) : t.Inv := by
  unfold Machine.step at h
  split at h
  · next hr => exact (hs.advancePc hr).executeWord (by simp) h
  · cases h
    exact hs

end

/-- Settles O18: by the invariant's preservation through the increment, every check, every write and every fault. -/
theorem stepKeepsTheInvariant : Obligations.StepKeepsTheInvariant := fun _ _ hs h => hs.step h

/-! ## Load -/

/-- R201, R202: a load that succeeds has accepted the configuration and found room for the words. -/
theorem load_cases {cfg : Config} {bytes : List Byte} {s : State} (h : load cfg bytes = .next s) :
    cfg.Valid ∧ (wordsOfBytes bytes).length ≤ cfg.memSize ∧ s = loadedState cfg (wordsOfBytes bytes) := by
  unfold load at h
  split at h
  · cases h
  split at h
  · cases h
  split at h
  · cases h
  next hvalid _ hsize =>
    cases h
    exact ⟨not_not.mp hvalid, by rw [wordsOfBytes_length]; exact Nat.le_of_not_lt hsize, rfl⟩

/-- R203: the state that load establishes is sound when the program fits in memory, since a word fits in a cell. -/
theorem loadedState_inv {cfg : Config} {words : List InstrWord} (hvalid : cfg.Valid)
    (hsize : words.length ≤ cfg.memSize) : (loadedState cfg words).Inv where
  cfg_valid := hvalid
  regs_length := List.length_replicate
  regs_le v hv := by simp [List.eq_of_mem_replicate hv]
  mem_wf := Memory.wf_ofWords words
  mem_addr p hp := by
    obtain ⟨-, hlt, -⟩ := Memory.mem_ofWords hp
    show p.1 < cfg.memSize
    omega
  mem_le p hp := by
    obtain ⟨-, -, hword⟩ := Memory.mem_ofWords hp
    exact Config.le_cellMax_of_lt hvalid.2.2 hword
  pc_le := Nat.zero_le _
  progLen_le := hsize
  fault_index r hr := by simp [loadedState] at hr

/-- Settles O17: load establishes `loadedState` of a program that fits. -/
theorem loadedStateIsSound : Obligations.LoadedStateIsSound := by
  intro cfg bytes s h
  obtain ⟨hvalid, hsize, rfl⟩ := load_cases h
  exact loadedState_inv hvalid hsize

/-! ## Observation -/

/-- R33: beyond the cells that exist, a memory reads 0. -/
theorem Memory.read_eq_zero_of_le {m : Memory} {n a : Nat} (hm : ∀ p ∈ m, p.1 < n) (ha : n ≤ a) : m.read a = 0 := by
  by_contra hne
  exact absurd (hm _ (Memory.mem_of_read_ne_zero hne)) (Nat.not_lt.mpr ha)

/-- Sound states of one memory size that agree on its cells hold the same memory. -/
theorem State.Inv.mem_eq {s t : State} (hs : s.Inv) (ht : t.Inv) (hcfg : s.cfg = t.cfg)
    (h : ∀ a < s.cfg.memSize, s.cell a = t.cell a) : s.mem = t.mem := by
  refine Memory.ext hs.mem_wf ht.mem_wf fun a => ?_
  by_cases ha : a < s.cfg.memSize
  · exact h a ha
  · rw [Memory.read_eq_zero_of_le hs.mem_addr (Nat.le_of_not_lt ha),
      Memory.read_eq_zero_of_le ht.mem_addr (hcfg ▸ Nat.le_of_not_lt ha)]

/-- R34: what two equal observations of one memory size have in common. -/
theorem observe_eq_iff {s t : State} (hcfg : s.cfg = t.cfg) :
    observe s = observe t ↔
      s.regs = t.regs ∧ (∀ a < s.cfg.memSize, s.cell a = t.cell a) ∧ s.pc = t.pc ∧ s.fault = t.fault := by
  simp [observe, ← hcfg]

/-- Settles O21: the observed cells are all that a canonical memory of this size can hold. -/
theorem observationShowsAllButProgLen : Obligations.ObservationShowsAllButProgLen := by
  intro s t hs ht hcfg hlen hobs
  obtain ⟨hregs, hcells, hpc, hfault⟩ := (observe_eq_iff hcfg).mp hobs
  have hmem : s.mem = t.mem := hs.mem_eq ht hcfg hcells
  cases s
  cases t
  simp only [State.mk.injEq]
  exact ⟨hcfg, hregs, hmem, hpc, hlen, hfault⟩

/-! ## What no instruction changes or reads -/

section
variable (s : State) (e : Effect)

@[simp] theorem applyEffect_cfg : (applyEffect s e).cfg = s.cfg := by cases e <;> rfl
@[simp] theorem applyEffect_pc : (applyEffect s e).pc = s.pc := by cases e <;> rfl
@[simp] theorem applyEffect_progLen : (applyEffect s e).progLen = s.progLen := by cases e <;> rfl
@[simp] theorem applyEffect_fault : (applyEffect s e).fault = s.fault := by cases e <;> rfl
end

/-- R26, R27: a step changes `pc` only by the increment, and neither `PROG_LEN` nor the configuration. -/
theorem step_progLen_cfg_pc {s t : State} (h : step s = .next t) :
    t.progLen = s.progLen ∧ t.cfg = s.cfg ∧ t.pc = if s.Running then s.pc + 1 else s.pc := by
  rcases step_cases h with ⟨hr, rfl⟩ | ⟨hr, i, e, -, rfl⟩ | ⟨hr, info, rfl⟩
  · exact ⟨rfl, rfl, (if_neg hr).symm⟩
  · simp [hr]
  · simp [hr]

/-- Settles O25: there is a next state, and whatever the step did, these fields moved as stated. -/
theorem everyStepAdvancesByOne : Obligations.EveryStepAdvancesByOne := by
  intro s
  obtain ⟨t, ht⟩ := step_is_next s
  exact ⟨t, ht, step_progLen_cfg_pc ht⟩

/-- R25, R27: the checks and reads of an instruction end in a result `r` that does not depend on `pc` or `PROG_LEN`. -/
theorem exec_eq_complete (i : Instr) (s : State) :
    ∃ r, exec i s = complete s r ∧
      ∀ p n, exec i { s with pc := p, progLen := n } = complete { s with pc := p, progLen := n } r := by
  cases i <;> exact ⟨_, rfl, fun _ _ => rfl⟩

/-- R27: neither the one write nor the raised fault looks at `PROG_LEN`. -/
theorem complete_with_progLen {s t : State} {r : Except FaultInfo Effect} (n : Nat) (h : complete s r = .next t) :
    complete { s with progLen := n } r = .next { t with progLen := n } := by
  rcases complete_cases h with ⟨e, rfl, rfl⟩ | ⟨info, rfl, rfl⟩
  · cases e <;> rfl
  · rfl

/-- R25: the one write does not look at `pc`; only the record of a fault does. -/
theorem complete_with_pc {s t : State} {r : Except FaultInfo Effect} (p : Nat) (h : complete s r = .next t)
    (ht : t.fault = none) : complete { s with pc := p } r = .next { t with pc := p } := by
  rcases complete_cases h with ⟨e, rfl, rfl⟩ | ⟨info, rfl, rfl⟩
  · cases e <;> rfl
  · simp at ht

/-- Settles O38: the result of the checks is the same, and it is completed in the same way. -/
theorem instructionsSeeNoPcOrProgLen : Obligations.InstructionsSeeNoPcOrProgLen := by
  refine ⟨fun i s t n h => ?_, fun i s t p _ h ht => ?_⟩ <;> obtain ⟨r, hr, hany⟩ := exec_eq_complete i s
  · exact (hany s.pc n).trans (complete_with_progLen n (hr ▸ h))
  · exact (hany p s.progLen).trans (complete_with_pc p (hr ▸ h) ht)

end Sys2Proof.Machine


/-! # Memory access: READ_MEM, WRITE_MEM, and a store into the program's own range -/

namespace Sys2Proof.Machine

/-! ## The frames of the claims, for the model's own updates -/

/-- R12: a write of a register of the file changes that register alone. -/
theorem onlyRegChanges_setReg {s : State} {i : Nat} (v : Nat) (hi : i < s.regs.length) :
    OnlyRegChanges s (s.setReg i v) i v := by
  refine ⟨rfl, by simp, ?_, fun j hj => ?_, fun _ => rfl⟩
  · rw [State.setReg_reg, if_pos ⟨rfl, hi⟩]
  · rw [State.setReg_reg, if_neg fun h => hj h.1]

/-- R170: raising a fault changes the latch alone. -/
theorem faultsWith_raise (s : State) (info : FaultInfo) : FaultsWith s (raise s info) info := rfl

/-! ## What READ_MEM and WRITE_MEM answer -/

section
variable {s : State} {b c : Nat} (d : Nat)

theorem exec_readMem_of_lt (hb : b < s.cfg.regCount) (hc : c < s.cfg.regCount) (ha : s.reg b + d < s.cfg.memSize) :
    exec (.readMem b c d) s = .next (s.setReg c (s.cell (s.reg b + d))) :=
  (execReadMem_eq b c d s).trans <| by
    rw [if_neg (Nat.not_le.mpr hb), if_neg (Nat.not_le.mpr hc), if_neg (Nat.not_le.mpr ha)]

theorem exec_readMem_of_fieldB_le (c : Nat) (hb : s.cfg.regCount ≤ b) :
    exec (.readMem b c d) s = .next (raise s (.outOfBounds .register .fieldB b s.cfg.regCount)) :=
  (execReadMem_eq b c d s).trans <| by rw [if_pos hb]

theorem exec_readMem_of_fieldC_le (hb : b < s.cfg.regCount) (hc : s.cfg.regCount ≤ c) :
    exec (.readMem b c d) s = .next (raise s (.outOfBounds .register .fieldC c s.cfg.regCount)) :=
  (execReadMem_eq b c d s).trans <| by rw [if_neg (Nat.not_le.mpr hb), if_pos hc]

theorem exec_readMem_of_address_le (hb : b < s.cfg.regCount) (hc : c < s.cfg.regCount)
    (ha : s.cfg.memSize ≤ s.reg b + d) :
    exec (.readMem b c d) s =
      .next (raise s (.outOfBounds .memory .regBPlusD (s.reg b + d) s.cfg.memSize)) :=
  (execReadMem_eq b c d s).trans <| by rw [if_neg (Nat.not_le.mpr hb), if_neg (Nat.not_le.mpr hc), if_pos ha]

theorem exec_writeMem_of_lt (hb : b < s.cfg.regCount) (hc : c < s.cfg.memSize) :
    exec (.writeMem b c) s = .next (s.setCell c (s.reg b)) :=
  (execWriteMem_eq b c s).trans <| by rw [if_neg (Nat.not_le.mpr hb), if_neg (Nat.not_le.mpr hc)]
end

/-- R92: a word that decodes to an instruction executes as that instruction. -/
theorem executeWord_of_decode {w : InstrWord} {i : Instr} (s : State) (h : decode w = .instr i) :
    executeWord w s = exec i s := by
  simp [executeWord, h]

/-- R90, R92: the step of a running machine. -/
theorem step_of_running {s : State} (hr : s.Running) : step s = executeWord (fetchWord s) (advancePc s) := if_pos hr

/-- R124: the step of a running machine that fetches a WRITE_MEM with operands in range. -/
theorem step_of_writeMem {s : State} {b c : Nat} (hr : s.Running)
    (hdecode : decode (fetchWord s) = .instr (.writeMem b c)) (hb : b < s.cfg.regCount) (hc : c < s.cfg.memSize) :
    step s = .next ((advancePc s).setCell c (s.reg b)) := by
  rw [step_of_running hr, executeWord_of_decode _ hdecode]
  exact exec_writeMem_of_lt hb hc

/-- Settles O40: each clause is READ_MEM's answer on that branch of its checks. The example word decodes to
READ_MEM 2, 1, 0 and so falls under the first clause. -/
theorem readMemResult : Obligations.ReadMemResult := by
  intro s hlen
  have hread : ∀ b c d, b < s.cfg.regCount → c < s.cfg.regCount → s.reg b + d < s.cfg.memSize →
      ∃ t, exec (.readMem b c d) s = .next t ∧ OnlyRegChanges s t c (s.cell (s.reg b + d)) :=
    fun b c d hb hc ha => ⟨_, exec_readMem_of_lt d hb hc ha, onlyRegChanges_setReg _ (hlen ▸ hc)⟩
  refine ⟨hread,
    fun b c d hb => ⟨_, exec_readMem_of_fieldB_le d c hb, faultsWith_raise s _⟩,
    fun b c d hb hc => ⟨_, exec_readMem_of_fieldC_le d hb hc, faultsWith_raise s _⟩,
    fun b c d hb hc ha => ⟨_, exec_readMem_of_address_le d hb hc ha, faultsWith_raise s _⟩,
    fun hreg hmem hx2 hcell => ?_⟩
  have hdecode : decode 0x0000105A#32 = .instr (.readMem 2 1 0) := by decide
  obtain ⟨t, ht, hframe⟩ := hread 2 1 0 hreg (by omega) (by omega)
  rw [hx2, hcell] at hframe
  exact ⟨t, (executeWord_of_decode s hdecode).trans ht, hframe⟩

/-- Settles O47: the store moves neither a register nor the configuration, so the load's checks still pass and its
address is still `a`. -/
theorem loadAfterStore : Obligations.LoadAfterStore := by
  rintro s b a r c d hlen hwf hb hr hc ha rfl
  refine ⟨_, _, exec_writeMem_of_lt hb ha, exec_readMem_of_lt d hr hc ha, ?_⟩
  rw [State.setReg_reg, if_pos ⟨rfl, hlen.symm ▸ hc⟩, State.setCell_reg, State.setCell_cell hwf, if_pos rfl]

/-! ## Which write an execution and a step can end in (R41) -/

/-- R169: a failed check raises its fault; otherwise the rest of the instruction decides. -/
theorem raised_or_of_check {failed ends : Prop} [Decidable failed] {s t : State} {info : FaultInfo}
    {rest : Host.Outcome State Fault Refusal} (h : (if failed then .next (raise s info) else rest) = .next t)
    (hrest : rest = .next t → (∃ f, t = raise s f) ∨ ends) : (∃ f, t = raise s f) ∨ ends := by
  split at h
  · cases h
    exact .inl ⟨info, rfl⟩
  · exact hrest h

/-- Everything an instruction can do, by what it writes: only WRITE_MEM stores, at its own address. -/
theorem exec_raise_or_setReg_or_store {i : Instr} {s t : State} (h : exec i s = .next t) :
    (∃ f, t = raise s f) ∨ (∃ j v, t = s.setReg j v) ∨
      ∃ b c, i = .writeMem b c ∧ t = s.setCell c (s.reg b) := by
  cases i with
  | loadConst b c =>
    refine raised_or_of_check ((execLoadConst_eq b c s).symm.trans h) fun h => ?_
    cases h
    exact .inr (.inl ⟨_, _, rfl⟩)
  | writeMem b c =>
    refine raised_or_of_check ((execWriteMem_eq b c s).symm.trans h) fun h => raised_or_of_check h fun h => ?_
    cases h
    exact .inr (.inr ⟨b, c, rfl, rfl⟩)
  | pow b c d e =>
    refine raised_or_of_check ((execPow_eq b c d e s).symm.trans h) fun h => raised_or_of_check h fun h =>
      raised_or_of_check h fun h => raised_or_of_check h fun h => raised_or_of_check h fun h => ?_
    split at h <;> cases h
    · exact .inr (.inl ⟨_, _, rfl⟩)
    · exact .inl ⟨_, rfl⟩
  | readMem b c d =>
    refine raised_or_of_check ((execReadMem_eq b c d s).symm.trans h) fun h => raised_or_of_check h fun h =>
      raised_or_of_check h fun h => ?_
    cases h
    exact .inr (.inl ⟨_, _, rfl⟩)

/-- Everything the execution of a word can do, by what it writes. -/
theorem executeWord_raise_or_setReg_or_store {w : InstrWord} {s t : State} (h : executeWord w s = .next t) :
    (∃ f, t = raise s f) ∨ (∃ j v, t = s.setReg j v) ∨
      ∃ b c, decode w = .instr (.writeMem b c) ∧ t = s.setCell c (s.reg b) := by
  unfold executeWord at h
  split at h
  · next i hi => simpa [hi] using exec_raise_or_setReg_or_store h
  · cases h
    exact .inl ⟨_, rfl⟩

/-- R41: a step that is no WRITE_MEM to `a` leaves cell `a` as it was. -/
theorem step_cell_of_no_store {s t : State} {a : Nat} (hm : s.mem.wf = true) (h : step s = .next t)
    (hno : ∀ b c, decode (fetchWord s) = .instr (.writeMem b c) → absoluteAddress c ≠ a) :
    t.cell a = s.cell a := by
  by_cases hr : s.Running
  · rw [step_of_running hr] at h
    rcases executeWord_raise_or_setReg_or_store h with ⟨f, rfl⟩ | ⟨j, v, rfl⟩ | ⟨b, c, hdecode, rfl⟩
    · rfl
    · rfl
    · have hne : c ≠ a := hno b c hdecode
      rw [State.setCell_cell (s := advancePc s) hm, if_neg hne.symm, advancePc_cell]
  · obtain rfl : s = t := by simpa [step, hr] using h
    rfl

/-! ## Along a run -/

/-- R28: the status is running exactly when the machine takes a step. -/
theorem State.status_eq_running_iff (s : State) : s.status = .running ↔ s.Running := by
  cases hf : s.fault <;> simp [State.status, State.Running, hf]

/-- R26, R27: a run never moves `pc` back, and keeps `PROG_LEN`. -/
theorem run_pc_le_and_progLen (n : Nat) {s t : State} (h : Sys2Proof.core.run n s = .next t) :
    s.pc ≤ t.pc ∧ t.progLen = s.progLen := by
  refine run_induction (P := fun u => s.pc ≤ u.pc ∧ u.progLen = s.progLen) (fun u v hu hstep => ?_) n s t
    ⟨le_rfl, rfl⟩ h
  obtain ⟨hlen, -, hpc⟩ := step_progLen_cfg_pc hstep
  refine ⟨hu.1.trans ?_, hlen.trans hu.2⟩
  rw [hpc]
  split <;> omega

/-- R41, R54: a cell that no step of a run stores to is at its end what it was at its start. -/
theorem run_cell_of_no_store {a : Nat} (n : Nat) {s t : State} (hs : s.Inv) (h : Sys2Proof.core.run n s = .next t)
    (hno : ∀ m < n, ∀ (u : State) (b c : Nat), Sys2Proof.core.run m s = .next u →
      decode (fetchWord u) = .instr (.writeMem b c) → absoluteAddress c ≠ a) : t.cell a = s.cell a := by
  induction n generalizing s with
  | zero =>
    rw [run_zero] at h
    cases h
    rfl
  | succ n ih =>
    obtain ⟨v, hv⟩ := step_is_next s
    rw [run_succ n hv] at h
    have hrest : t.cell a = v.cell a := ih (hs.step hv) h fun m hm u b c hu =>
      hno (m + 1) (by omega) u b c ((run_succ m hv).trans hu)
    have hfirst : v.cell a = s.cell a :=
      step_cell_of_no_store hs.mem_wf hv fun b c => hno 0 (by omega) s b c (run_zero s)
    exact hrest.trans hfirst

/-- Settles O35: `pc` stands one past the store after it and never moves back, a running machine is below the fixed
`PROG_LEN`, and ahead of the store the cell keeps the stored value until it is fetched. -/
theorem storeIntoTheProgram : Obligations.StoreIntoTheProgram := by
  intro s b a hs hfault hpc hdecode hb ha
  have hstep := step_of_writeMem ⟨hfault, hpc⟩ hdecode hb ha
  have hstored : ((advancePc s).setCell a (s.reg b)).cell a = s.reg b := by
    rw [State.setCell_cell (s := advancePc s) hs.mem_wf, if_pos rfl]
  refine ⟨_, hstep, hstored, fun hbehind n u hrun _ => ?_, fun _ _ n u hrun hrunning hat hno => ?_,
    fun hbeyond n u hrun hrunning => ?_⟩
  · have hpast : s.pc + 1 ≤ u.pc := (run_pc_le_and_progLen n hrun).1
    omega
  · have hfetch : fetchWord u = BitVec.ofNat 32 (s.reg b) := by
      rw [fetchWord, hat, run_cell_of_no_store n (hs.step hstep) hrun hno, hstored]
    exact ⟨hfetch, hfetch ▸ step_of_running (u.status_eq_running_iff.mp hrunning)⟩
  · have hlen : u.progLen = s.progLen := (run_pc_le_and_progLen n hrun).2
    have hinside : u.pc < u.progLen := (u.status_eq_running_iff.mp hrunning).2
    omega

end Sys2Proof.Machine


/-! # Encoding: what `pack` joins, decoding against encoding, and the bytes of a program -/

namespace Sys2Proof

/-! ## Joining fields (R78) -/

/-- One turn of `pack`: the field, cut to its width and shifted to its place, joined to what is there. -/
def PackField.join (acc : Nat) (f : PackField) : Nat := acc ||| ((f.value % 2 ^ f.width) <<< f.offset)

/-- What a field adds to the word: its value, cut to its width, at the weight of its lowest bit. The weight is the first
factor because the kernel unfolds a product along the second, which is to be no numeral as large as `2 ^ 25`. -/
def PackField.weighted (f : PackField) : Nat := 2 ^ f.offset * (f.value % 2 ^ f.width)

/-- The number that `pack` cuts to a word: the fields joined to `acc`, in order. -/
def joinFields (acc : Nat) (fields : List PackField) : Nat := fields.foldl PackField.join acc

theorem pack_eq_ofNat_joinFields (fields : List PackField) : pack fields = BitVec.ofNat 32 (joinFields 0 fields) := rfl

theorem joinFields_cons (acc : Nat) (f : PackField) (fields : List PackField) :
    joinFields acc (f :: fields) = joinFields (f.join acc) fields := rfl

/-- The fields lie one above the other, from bit `n` on and inside the word, so that no two overlap. -/
def Stacked : Nat → List PackField → Prop
  | n, [] => n ≤ 32
  | n, f :: fields => n ≤ f.offset ∧ Stacked (f.offset + f.width) fields

/-- R61 to R64: the fields of every format lie one above the other. -/
theorem stacked_fields (i : Instr) : Stacked 0 i.fields := by
  cases i <;> simp [Instr.fields, Stacked]

section
variable {fields : List PackField} {f : PackField} {n acc : Nat}

theorem join_lt (hn : n ≤ f.offset) (ha : acc < 2 ^ n) : f.join acc < 2 ^ (f.offset + f.width) :=
  have htop : acc < 2 ^ (f.offset + f.width) := ha.trans_le (Nat.pow_le_pow_right (by decide) (by omega))
  Laws.or_field_lt f.value f.offset f.width htop le_rfl

/-- Joining a field above everything joined so far is adding its weighted value. -/
theorem join_eq_add (hn : n ≤ f.offset) (ha : acc < 2 ^ n) : f.join acc = acc + f.weighted := by
  have hoff : acc < 2 ^ f.offset := ha.trans_le (Nat.pow_le_pow_right (by decide) hn)
  rw [PackField.join, Nat.or_comm, ← Nat.shiftLeft_add_eq_or_of_lt hoff, Nat.shiftLeft_eq, Nat.mul_comm, Nat.add_comm,
    PackField.weighted]

/-- The value of the field that was joined last: what lies below it is shifted out. -/
theorem join_div (hn : n ≤ f.offset) (ha : acc < 2 ^ n) : f.join acc / 2 ^ f.offset = f.value % 2 ^ f.width := by
  have hoff : acc < 2 ^ f.offset := ha.trans_le (Nat.pow_le_pow_right (by decide) hn)
  rw [join_eq_add hn ha, PackField.weighted, Nat.add_mul_div_left _ _ (by positivity), Nat.div_eq_of_lt hoff,
    Nat.zero_add]

theorem joinFields_lt (hs : Stacked n fields) (ha : acc < 2 ^ n) : joinFields acc fields < 2 ^ 32 := by
  induction fields generalizing n acc with
  | nil => exact ha.trans_le (Nat.pow_le_pow_right (by decide) hs)
  | cons f fields ih =>
    obtain ⟨hn, hs⟩ := hs
    exact ih hs (join_lt hn ha)

/-- Fields that start at bit `n` or above leave the low `n` bits as they are. -/
theorem joinFields_mod (acc : Nat) (hs : Stacked n fields) : joinFields acc fields % 2 ^ n = acc % 2 ^ n := by
  induction fields generalizing n acc with
  | nil => rfl
  | cons f fields ih =>
    obtain ⟨hn, hs⟩ := hs
    have hdvd : 2 ^ n ∣ 2 ^ (f.offset + f.width) := pow_dvd_pow 2 (by omega)
    calc joinFields (f.join acc) fields % 2 ^ n
        = joinFields (f.join acc) fields % 2 ^ (f.offset + f.width) % 2 ^ n := (Nat.mod_mod_of_dvd _ hdvd).symm
      _ = f.join acc % 2 ^ n := by rw [ih _ hs, Nat.mod_mod_of_dvd _ hdvd]
      _ = acc % 2 ^ n := Laws.or_shift_mod _ _ _ _ hn

/-- R82: fields that do not overlap join to the sum of what each adds. -/
theorem joinFields_eq_sum (hs : Stacked n fields) (ha : acc < 2 ^ n) :
    joinFields acc fields = acc + (fields.map PackField.weighted).sum := by
  induction fields generalizing n acc with
  | nil => rfl
  | cons f fields ih =>
    obtain ⟨hn, hs⟩ := hs
    rw [joinFields_cons, ih hs (join_lt hn ha), join_eq_add hn ha, List.map_cons, List.sum_cons, Nat.add_assoc]

/-- Every field stands at its place: what was joined later lies above it and is cut off. -/
theorem joinFields_field (hs : Stacked n fields) (ha : acc < 2 ^ n) (hf : f ∈ fields) :
    joinFields acc fields / 2 ^ f.offset % 2 ^ f.width = f.value % 2 ^ f.width := by
  induction fields generalizing n acc with
  | nil => cases hf
  | cons g fields ih =>
    obtain ⟨hn, hs⟩ := hs
    rw [joinFields_cons]
    rcases List.mem_cons.mp hf with rfl | hf
    · rw [← Nat.mod_mul_right_div_self, ← pow_add, joinFields_mod _ hs, Nat.mod_eq_of_lt (join_lt hn ha),
        join_div hn ha]
    · exact ih hs (join_lt hn ha) hf
end

/-! ## Packed words -/

theorem toNat_pack {fields : List PackField} (hs : Stacked 0 fields) : (pack fields).toNat = joinFields 0 fields := by
  rw [pack_eq_ofNat_joinFields, BitVec.toNat_ofNat, Nat.mod_eq_of_lt (joinFields_lt hs (by decide))]

/-- R65 against R78: every packed field unpacks to its value, cut to its width. -/
theorem unpack_pack {fields : List PackField} {f : PackField} (hs : Stacked 0 fields) (hf : f ∈ fields) :
    unpack (pack fields) f.offset f.width = f.value % 2 ^ f.width := by
  rw [unpack, toNat_pack hs, Nat.shiftRight_eq_div_pow, joinFields_field hs (by decide) hf]

/-- Settles O8: one field inside the word is the shortest list of fields that do not overlap. -/
theorem unpackAfterPack : Obligations.UnpackAfterPack := by
  intro value offset width _ hin
  have hs : Stacked 0 [⟨value, offset, width⟩] := ⟨Nat.zero_le _, Nat.add_comm width offset ▸ hin⟩
  exact unpack_pack hs (List.mem_singleton_self _)

/-- R82: an instruction's word is the sum of its weighted fields. -/
theorem toNat_encode (i : Instr) : (encode i).toNat = (i.fields.map PackField.weighted).sum := by
  rw [encode, toNat_pack (stacked_fields i), joinFields_eq_sum (stacked_fields i) (by decide), Nat.zero_add]

/-- R83: the encoder reads no bit of an operand above its field. -/
theorem encode_truncated (i : Instr) : encode i.truncated = encode i := by
  cases i <;> simp [encode, pack, Instr.fields, Instr.truncated]

/-- Settles O7: the worked operand is one of them, since 5000 is 904 modulo 2048. -/
theorem largeOperandKeepsLowBits : Obligations.LargeOperandKeepsLowBits :=
  ⟨fun i => (encode_truncated i).symm, (encode_truncated (.loadConst 3 5000)).symm, by decide⟩

/-! ## The decoder by field A (R68, R69) -/

section
variable {w : InstrWord}

theorem decode_of_fieldA_loadConst (h : fieldA w = 13) :
    decode w = .instr (.loadConst (fieldB w) (fieldCConst w)) := by
  simp [decode, h]

theorem decode_of_fieldA_writeMem (h : fieldA w = 15) :
    decode w = .instr (.writeMem (fieldB w) (fieldCAddress w)) := by
  simp [decode, h]

theorem decode_of_fieldA_pow (h : fieldA w = 22) :
    decode w = .instr (.pow (fieldB w) (fieldCReg w) (fieldD w) (fieldE w)) := by
  simp [decode, h]

theorem decode_of_fieldA_readMem (h : fieldA w = 26) :
    decode w = .instr (.readMem (fieldB w) (fieldCReg w) (fieldD w)) := by
  simp [decode, h]

theorem decode_of_fieldA_notMem (h : fieldA w ∉ [13, 15, 22, 26]) : decode w = .unknown (fieldA w) := by
  obtain ⟨h13, h15, h22, h26⟩ : fieldA w ≠ 13 ∧ fieldA w ≠ 15 ∧ fieldA w ≠ 22 ∧ fieldA w ≠ 26 := by simpa using h
  simpa [h13, h15, h22, h26] using decode_cases w

/-- R69: the opcode of a decoded instruction is the word's field A. -/
theorem fieldA_eq_opcode_of_decode {i : Instr} (h : decode w = .instr i) : fieldA w = i.opcode := by
  rcases decode_cases w with ⟨hA, hd⟩ | ⟨hA, hd⟩ | ⟨hA, hd⟩ | ⟨hA, hd⟩ | ⟨-, hd⟩ <;> rw [hd] at h <;> cases h
  all_goals exact hA

theorem opcode_mem (i : Instr) : i.opcode ∈ [13, 15, 22, 26] := by
  cases i <;> simp [Instr.opcode]

/-- R69: four values of field A select an instruction, and no other does. -/
theorem exists_decode_eq_instr_iff : (∃ i, decode w = .instr i) ↔ fieldA w ∈ [13, 15, 22, 26] := by
  refine ⟨fun ⟨i, hi⟩ => fieldA_eq_opcode_of_decode hi ▸ opcode_mem i, fun h => ?_⟩
  simp only [List.mem_cons, List.not_mem_nil, or_false] at h
  rcases h with hA | hA | hA | hA
  · exact ⟨_, decode_of_fieldA_loadConst hA⟩
  · exact ⟨_, decode_of_fieldA_writeMem hA⟩
  · exact ⟨_, decode_of_fieldA_pow hA⟩
  · exact ⟨_, decode_of_fieldA_readMem hA⟩
end

theorem fieldA_eq_mod (w : InstrWord) : fieldA w = w.toNat % 2 ^ 5 := rfl

/-- A mask of the low `n` bits keeps the value modulo `2 ^ n`. -/
theorem toNat_and_lowMask {m : InstrWord} (w : InstrWord) (n : Nat) (hm : m.toNat = 2 ^ n - 1) :
    (w &&& m).toNat = w.toNat % 2 ^ n := by
  rw [BitVec.toNat_and, hm, Nat.and_two_pow_sub_one_eq_mod]

/-- R68: the masked word matches `a` exactly when field A holds `a`. -/
theorem and_opcodeMask_eq_iff (w a : InstrWord) : w &&& 0x1F#32 = a ↔ fieldA w = a.toNat := by
  rw [← BitVec.toNat_inj, toNat_and_lowMask w 5 rfl, fieldA_eq_mod]

/-- Settles O1: match and mask speak of field A, and each bit range is a field. -/
theorem decodeFollowsMatchAndMask : Obligations.DecodeFollowsMatchAndMask := by
  intro w
  simp only [toNat_extractLsb_eq_unpack, ne_eq, and_opcodeMask_eq_iff]
  refine ⟨decode_of_fieldA_loadConst, decode_of_fieldA_writeMem, decode_of_fieldA_pow, decode_of_fieldA_readMem,
    fun h13 h15 h22 h26 => decode_of_fieldA_notMem ?_⟩
  simpa using ⟨h13, h15, h22, h26⟩

/-! ## Decoding against encoding -/

theorem unpack_encode {i : Instr} {f : PackField} (hf : f ∈ i.fields) :
    unpack (encode i) f.offset f.width = f.value % 2 ^ f.width :=
  unpack_pack (stacked_fields i) hf

/-- R68 against R82, R83: decoding an encoded instruction gives its operands, cut to their fields. -/
theorem decode_encode (i : Instr) : decode (encode i) = .instr i.truncated := by
  cases i with
  | loadConst b c =>
    have hb : fieldB (encode (.loadConst b c)) = b % 128 := unpack_encode (f := ⟨b, 5, 7⟩) (by simp [Instr.fields])
    have hc : fieldCConst (encode (.loadConst b c)) = c % 2048 :=
      unpack_encode (f := ⟨c, 12, 11⟩) (by simp [Instr.fields])
    rw [decode_of_fieldA_loadConst (Laws.EncodeSelects.loadConst b c), hb, hc, Instr.truncated]
  | writeMem b c =>
    have hb : fieldB (encode (.writeMem b c)) = b % 128 := unpack_encode (f := ⟨b, 5, 7⟩) (by simp [Instr.fields])
    have hc : fieldCAddress (encode (.writeMem b c)) = c % 16384 :=
      unpack_encode (f := ⟨c, 12, 14⟩) (by simp [Instr.fields])
    rw [decode_of_fieldA_writeMem (Laws.EncodeSelects.writeMem b c), hb, hc, Instr.truncated]
  | pow b c d e =>
    have hb : fieldB (encode (.pow b c d e)) = b % 128 := unpack_encode (f := ⟨b, 5, 7⟩) (by simp [Instr.fields])
    have hc : fieldCReg (encode (.pow b c d e)) = c % 128 := unpack_encode (f := ⟨c, 12, 7⟩) (by simp [Instr.fields])
    have hd : fieldD (encode (.pow b c d e)) = d % 64 := unpack_encode (f := ⟨d, 19, 6⟩) (by simp [Instr.fields])
    have he : fieldE (encode (.pow b c d e)) = e % 128 := unpack_encode (f := ⟨e, 25, 7⟩) (by simp [Instr.fields])
    rw [decode_of_fieldA_pow (Laws.EncodeSelects.pow b c d e), hb, hc, hd, he, Instr.truncated]
  | readMem b c d =>
    have hb : fieldB (encode (.readMem b c d)) = b % 128 := unpack_encode (f := ⟨b, 5, 7⟩) (by simp [Instr.fields])
    have hc : fieldCReg (encode (.readMem b c d)) = c % 128 := unpack_encode (f := ⟨c, 12, 7⟩) (by simp [Instr.fields])
    have hd : fieldD (encode (.readMem b c d)) = d % 64 := unpack_encode (f := ⟨d, 19, 6⟩) (by simp [Instr.fields])
    rw [decode_of_fieldA_readMem (Laws.EncodeSelects.readMem b c d), hb, hc, hd, Instr.truncated]

/-- R83 changes no operand that fits its field: the field's bound is what makes the remainder the operand itself. -/
theorem truncated_of_wellFormed {i : Instr} (h : i.wellFormed = true) : i.truncated = i := by
  cases i <;> simpa [Instr.truncated] using h

/-- Settles O4: the decoder reads back the cut operands, and no operand of a well-formed instruction is cut. -/
theorem decodeEncodeRoundTrip : Obligations.DecodeEncodeRoundTrip := by
  intro i hi
  rw [decode_encode, truncated_of_wellFormed hi]

/-- R61 to R64: how many low bits of the word the instruction's format gives to a field. -/
def Instr.usedBits : Instr → Nat
  | .loadConst _ _ => 23
  | .writeMem _ _ => 26
  | .pow _ _ _ _ => 32
  | .readMem _ _ _ => 25

theorem toNat_and_usedMask (w : InstrWord) (i : Instr) : (w &&& i.usedMask).toNat = w.toNat % 2 ^ i.usedBits := by
  cases i <;> exact toNat_and_lowMask w _ rfl

/-- The fields of a decoded instruction, read out of the word `w` and weighted, add up to the used bits of `w`. -/
theorem sum_weighted_of_decode {w : InstrWord} {i : Instr} (h : decode w = .instr i) :
    (i.fields.map PackField.weighted).sum = w.toNat % 2 ^ i.usedBits := by
  have hA : w.toNat % 2 ^ 5 = i.opcode := fieldA_eq_mod w ▸ fieldA_eq_opcode_of_decode h
  rcases decode_cases w with ⟨-, hd⟩ | ⟨-, hd⟩ | ⟨-, hd⟩ | ⟨-, hd⟩ | ⟨-, hd⟩ <;> rw [hd] at h <;> cases h
  all_goals
    simp [Instr.opcode, Instr.fields, Instr.usedBits, PackField.weighted, fieldB, fieldCConst, fieldCAddress, fieldCReg,
      fieldD, fieldE, unpack, Nat.shiftRight_eq_div_pow] at hA ⊢
    omega

/-- Settles O5: both words are the sum of the same fields. -/
theorem encodeOfDecodedIsTheWord : Obligations.EncodeOfDecodedIsTheWord := by
  refine fun w i h => ⟨wellFormed_of_decode h, BitVec.eq_of_toNat_eq ?_⟩
  rw [toNat_encode, toNat_and_usedMask, sum_weighted_of_decode h]

/-! ## The bytes of a program (R82, R85) -/

theorem bytesOfWord_length (w : InstrWord) : (bytesOfWord w).length = 4 := rfl

/-- R82: byte `k` of a word is its bits `8k + 7` to `8k`. -/
theorem toNat_getD_bytesOfWord (w : InstrWord) {k : Nat} (hk : k < 4) :
    ((bytesOfWord w).getD k 0).toNat = w.toNat / 256 ^ k % 256 := by
  match k, hk with
  | 0, _ | 1, _ | 2, _ | 3, _ => simp [bytesOfWord]

theorem assemble_cons (i : Instr) (program : List Instr) :
    assemble (i :: program) = bytesOfWord (encode i) ++ assemble program := List.flatMap_cons

theorem assemble_length (program : List Instr) : (assemble program).length = 4 * program.length := by
  induction program with
  | nil => rfl
  | cons i program ih =>
    rw [assemble_cons, List.length_append, bytesOfWord_length, ih, List.length_cons]
    omega

/-- R82: the bytes of row `n` start at byte `4n`. -/
theorem getD_assemble {program : List Instr} {n k : Nat} {i : Instr} (hi : program[n]? = some i) (hk : k < 4) :
    (assemble program).getD (4 * n + k) 0 = (bytesOfWord (encode i)).getD k 0 := by
  induction program generalizing n with
  | nil => cases hi
  | cons j program ih =>
    rw [assemble_cons]
    cases n with
    | zero =>
      cases hi
      rw [Nat.mul_zero, Nat.zero_add, List.getD_append _ _ _ _ hk]
    | succ n =>
      rw [List.getD_append_right _ _ _ _ (by rw [bytesOfWord_length]; omega), bytesOfWord_length,
        show 4 * (n + 1) + k - 4 = 4 * n + k by omega, ih hi]

/-- Settles O6: each word is the sum of its weighted fields, and each row takes the 4 bytes of its word. -/
theorem assemblerWordsAndBytes : Obligations.AssemblerWordsAndBytes := by
  refine ⟨fun b c => ?_, fun b c d => ?_, fun b c => ?_, fun b c d e => ?_, assemble_length,
    fun program n i hi k hk => ?_, by decide, by decide⟩
  case refine_5 => rw [getD_assemble hi hk, toNat_getD_bytesOfWord _ hk]
  all_goals
    simp [toNat_encode, Instr.fields, PackField.weighted]
    omega

end Sys2Proof

namespace Sys2Proof.Machine

/-! ## The 28 values of field A that select nothing (R69, R163) -/

theorem executeWord_of_fieldA_notMem {w : InstrWord} (s : State) (h : fieldA w ∉ [13, 15, 22, 26]) :
    executeWord w s = .next (raise s (.unknownOpcode (fieldA w) w)) := by
  simp only [executeWord, decode_of_fieldA_notMem h, execUnknown, complete_error]

/-- Settles O2: a decoded instruction has one of the four opcodes, and every other word raises its fault. -/
theorem fourOfThirtyTwoOpcodes : Obligations.FourOfThirtyTwoOpcodes :=
  ⟨fun _ => exists_decode_eq_instr_iff, fun _ _ => fieldA_eq_opcode_of_decode,
    fun _ h s => ⟨_, executeWord_of_fieldA_notMem s h, faultsWith_raise s _⟩, by decide, by decide⟩

end Sys2Proof.Machine


/-! # The execution cycle: the step of a running and of an ended machine, and a run to its end -/

namespace Sys2Proof.Machine

/-! ## A machine that has ended (R91) -/

/-- R28, R90: the machine does not run exactly when a fault is latched or the program's end is reached. -/
theorem State.not_running_iff (s : State) : ¬ s.Running ↔ s.fault ≠ none ∨ s.progLen ≤ s.pc := by
  rw [State.Running, not_and_or, Nat.not_lt]

theorem step_of_not_running {s : State} (hr : ¬ s.Running) : step s = .next s := if_neg hr

theorem run_of_not_running {s : State} (hr : ¬ s.Running) (n : Nat) : Sys2Proof.core.run n s = .next s := by
  induction n with
  | zero => exact run_zero s
  | succ n ih => rw [run_succ n (step_of_not_running hr), ih]

/-- Settles O24: such a machine is not running, so a step answers the state itself, and then so does every run. -/
theorem noStepAfterTheEnd : Obligations.NoStepAfterTheEnd := by
  intro s hended
  have hr : ¬ s.Running := s.not_running_iff.mpr hended
  exact ⟨step_of_not_running hr, run_of_not_running hr⟩

/-! ## The step of a running machine (R90 to R94) -/

/-- Settles O22: the word at `pc` is the fetched one, and the instruction executes after the increment. -/
theorem stepRunsTheDecodedInstruction : Obligations.StepRunsTheDecodedInstruction := by
  intro s hfault hpc i hdecode
  exact (step_of_running ⟨hfault, hpc⟩).trans (executeWord_of_decode (advancePc s) hdecode)

/-! ## What a run keeps, and runs in sequence -/

theorem run_cfg (n : Nat) {s t : State} (h : Sys2Proof.core.run n s = .next t) : t.cfg = s.cfg :=
  run_induction (P := fun u => u.cfg = s.cfg) (fun _ _ hu hstep => (step_progLen_cfg_pc hstep).2.1.trans hu) n s t rfl h

theorem State.Inv.run {s t : State} (hs : s.Inv) (n : Nat) (h : Sys2Proof.core.run n s = .next t) : t.Inv :=
  run_induction (P := State.Inv) (fun _ _ hu hstep => hu.step hstep) n s t hs h

theorem run_add {n : Nat} (k : Nat) {s t : State} (h : Sys2Proof.core.run n s = .next t) :
    Sys2Proof.core.run (n + k) s = Sys2Proof.core.run k t := by
  induction n generalizing s with
  | zero =>
    rw [run_zero] at h
    cases h
    rw [Nat.zero_add]
  | succ n ih =>
    obtain ⟨u, hu⟩ := step_is_next s
    rw [run_succ n hu] at h
    rw [Nat.succ_add, run_succ _ hu, ih h]

/-! ## The run to its end (R98) -/

/-- R98: the run from `s` ends in `t` after `n` steps, and step `m` of it fetches `m` places past
`s.pc`. -/
structure EndsAfter (s : State) (n : Nat) (t : State) : Prop where
  run_eq : Sys2Proof.core.run n s = .next t
  not_running : ¬ t.Running
  pc_eq : t.pc = s.pc + n
  running_before : ∀ m < n, ∃ u : State, Sys2Proof.core.run m s = .next u ∧ u.Running ∧ u.pc = s.pc + m

theorem EndsAfter.of_not_running {s : State} (hr : ¬ s.Running) : EndsAfter s 0 s where
  run_eq := run_zero s
  not_running := hr
  pc_eq := rfl
  running_before m hm := absurd hm m.not_lt_zero

/-- R94: one step of a running machine before a run that ends. -/
theorem EndsAfter.of_step {s u t : State} {n : Nat} (hr : s.Running) (hstep : step s = .next u)
    (hu : EndsAfter u n t) : EndsAfter s (n + 1) t := by
  have hpc : u.pc = s.pc + 1 := by rw [(step_progLen_cfg_pc hstep).2.2, if_pos hr]
  refine ⟨(run_succ n hstep).trans hu.run_eq, hu.not_running, by rw [hu.pc_eq, hpc]; omega, fun m hm => ?_⟩
  cases m with
  | zero => exact ⟨s, run_zero s, hr, rfl⟩
  | succ m =>
    obtain ⟨v, hv, hvr, hvpc⟩ := hu.running_before m (by omega)
    exact ⟨v, (run_succ m hstep).trans hv, hvr, by rw [hvpc, hpc]; omega⟩

/-- R98: every run ends, within as many steps as there are addresses from `pc` to `PROG_LEN`: each step of a running
machine leaves one fewer. -/
theorem exists_endsAfter (s : State) : ∃ n t, n ≤ s.progLen - s.pc ∧ EndsAfter s n t := by
  induction hleft : s.progLen - s.pc generalizing s with
  | zero => exact ⟨0, s, le_rfl, .of_not_running (s.not_running_iff.mpr (.inr (by omega)))⟩
  | succ k ih =>
    by_cases hr : s.Running
    · obtain ⟨u, hu⟩ := step_is_next s
      obtain ⟨hlen, -, hpc⟩ := step_progLen_cfg_pc hu
      rw [if_pos hr] at hpc
      obtain ⟨n, t, hn, ht⟩ := ih u (by omega)
      exact ⟨n + 1, t, by omega, ht.of_step hr hu⟩
    · exact ⟨0, s, Nat.zero_le _, .of_not_running hr⟩

/-- R91: a run that has ended stays at its end, however many steps are asked for. -/
theorem EndsAfter.run_of_le {s t : State} {n k : Nat} (h : EndsAfter s n t) (hk : n ≤ k) :
    Sys2Proof.core.run k s = .next t := by
  obtain ⟨j, rfl⟩ := Nat.exists_eq_add_of_le hk
  rw [run_add j h.run_eq, run_of_not_running h.not_running]

/-- Settles O31: a loaded machine starts at 0 and its run ends; without a fault it ends at `PROG_LEN`, and with one the
invariant puts `pc` one past the latched index. -/
theorem runEndsWithinProgLen : Obligations.RunEndsWithinProgLen := by
  intro cfg bytes s hload
  have hs : s.Inv := loadedStateIsSound cfg bytes s hload
  obtain ⟨-, -, rfl⟩ := load_cases hload
  obtain ⟨n, t, hn, hend⟩ := exists_endsAfter (loadedState cfg (wordsOfBytes bytes))
  have hlen := (run_pc_le_and_progLen n hend.run_eq).2
  have hpc : t.pc = n := hend.pc_eq.trans (Nat.zero_add n)
  refine ⟨n, t, hn, hend.run_eq, mt t.status_eq_running_iff.mp hend.not_running, hpc, fun m hm => ?_,
    fun hfault => ?_, fun r hr => ?_⟩
  · obtain ⟨u, hu, hur, hupc⟩ := hend.running_before m hm
    exact ⟨u, hu, u.status_eq_running_iff.mpr hur, hupc.trans (Nat.zero_add m)⟩
  · have hhalted : t.progLen ≤ t.pc := (t.not_running_iff.mp hend.not_running).resolve_left (not_not.mpr hfault)
    exact le_antisymm hn (by omega)
  · have hindex : r.index + 1 = t.pc := (hs.run n hend.run_eq).fault_index r hr
    omega

/-! ## The host's run, and what it observes (R98 to R100) -/

/-- R98, R91: the host stops where the machine ends, and further steps would change nothing. -/
theorem runSteps_eq_run (n : Nat) (s : State) :
    runSteps n s = (Sys2Proof.core.run n s : Host.Outcome State Fault Refusal) := by
  induction n generalizing s with
  | zero => rfl
  | succ n ih =>
    by_cases hr : s.Running
    · obtain ⟨t, ht⟩ := step_is_next s
      rw [runSteps, if_pos hr, ht]
      exact (ih t).trans (run_succ n ht).symm
    · rw [runSteps, if_neg hr]
      exact (run_of_not_running hr (n + 1)).symm

/-- R98: the host's run answers the end of the machine's run. -/
theorem EndsAfter.runToEnd_eq {s t : State} {n : Nat} (h : EndsAfter s n t) (hn : n ≤ s.progLen - s.pc) :
    runToEnd s = .next t :=
  (runSteps_eq_run _ s).trans (h.run_of_le hn)

/-- R200: execute answers the observation of the end of the run. -/
theorem execute_of_load_of_runToEnd {cfg : Config} {bytes : List Byte} {s t : State} (hload : load cfg bytes = .next s)
    (hrun : runToEnd s = .next t) : execute cfg bytes = .next (observe t) := by
  simp only [execute, hload, hrun]

theorem observe_memory_getElem? {s : State} {a : Nat} (ha : a < s.cfg.memSize) :
    (observe s).memory[a]? = some (s.cell a) := by
  simp [observe, ha]

/-- Settles O33: the host's run reaches the end that every run has, where the configuration is still the one of
the load and the invariant gives the register file its length. -/
theorem executeObservesTheEnd : Obligations.ExecuteObservesTheEnd := by
  refine ⟨fun s => runSteps_eq_run _ s, fun cfg bytes s hload => ?_⟩
  obtain ⟨n, t, hn, hend⟩ := exists_endsAfter s
  have hrun : runToEnd s = .next t := hend.runToEnd_eq hn
  have ht : t.Inv := (loadedStateIsSound cfg bytes s hload).run n hend.run_eq
  have hcfg : t.cfg = cfg := by
    obtain ⟨-, -, rfl⟩ := load_cases hload
    exact run_cfg n hend.run_eq
  subst hcfg
  exact ⟨t, hrun, mt t.status_eq_running_iff.mp hend.not_running, execute_of_load_of_runToEnd hload hrun,
    ht.regs_length, by simp [observe], fun _ => observe_memory_getElem?⟩

/-! ## The empty program (R99) -/

/-- R202: the empty stream passes every check of load but the configuration's. -/
theorem load_nil {cfg : Config} (hvalid : cfg.Valid) : load cfg [] = .next (loadedState cfg []) := by
  simp [load, hvalid, wordsOfBytes]

/-- R203: what a loaded empty program shows. -/
theorem observe_loadedState_nil (cfg : Config) :
    observe (loadedState cfg []) = { registers := List.replicate cfg.regCount 0,
                                     memory := List.replicate cfg.memSize 0, programCounter := 0, fault := none } := by
  have hcell : (loadedState cfg []).cell = fun _ => 0 := rfl
  simp only [observe, hcell, List.map_const', List.length_range]
  rfl

/-- Settles O13: `PROG_LEN` is 0, so the run ends where it starts, in the loaded state. -/
theorem emptyProgramHaltsAtOnce : Obligations.EmptyProgramHaltsAtOnce := by
  intro cfg hvalid
  have hr : ¬ (loadedState cfg []).Running := (State.not_running_iff _).mpr (.inr le_rfl)
  have hrun : runToEnd (loadedState cfg []) = .next (loadedState cfg []) :=
    (EndsAfter.of_not_running hr).runToEnd_eq (Nat.zero_le _)
  refine ⟨⟨_, load_nil hvalid, rfl, rfl, step_of_not_running hr⟩, ?_⟩
  rw [execute_of_load_of_runToEnd (load_nil hvalid) hrun, observe_loadedState_nil]

end Sys2Proof.Machine


/-! # The constant load: LOAD_CONST (R110) -/

namespace Sys2Proof.Machine

/-! ## What LOAD_CONST answers -/

section
variable {s : State} {b : Nat} (c : Nat)

theorem exec_loadConst_of_lt (hb : b < s.cfg.regCount) : exec (.loadConst b c) s = .next (s.setReg b c) :=
  (execLoadConst_eq b c s).trans <| if_neg (Nat.not_le.mpr hb)

theorem exec_loadConst_of_le (hb : s.cfg.regCount ≤ b) :
    exec (.loadConst b c) s = .next (raise s (.outOfBounds .register .fieldB b s.cfg.regCount)) :=
  (execLoadConst_eq b c s).trans <| if_pos hb
end

/-- Settles O39: each clause is LOAD_CONST's answer on that branch of its one check. The example word decodes to
LOAD_CONST 0, 123 and so falls under the first clause. -/
theorem loadConstResult : Obligations.LoadConstResult := by
  intro s hlen
  have hload : ∀ b c, b < s.cfg.regCount → ∃ t, exec (.loadConst b c) s = .next t ∧ OnlyRegChanges s t b c :=
    fun b c hb => ⟨_, exec_loadConst_of_lt c hb, onlyRegChanges_setReg c (hlen ▸ hb)⟩
  refine ⟨hload, fun b c hb => ⟨_, exec_loadConst_of_le c hb, faultsWith_raise s _⟩, fun hcount => ?_⟩
  have hdecode : decode 0x0007B00D#32 = .instr (.loadConst 0 123) := by decide
  rw [executeWord_of_decode s hdecode]
  exact hload 0 123 (by omega)

end Sys2Proof.Machine


/-! # Memory access: WRITE_MEM's answer, and the one write or one fault of every instruction -/

namespace Sys2Proof.Machine

/-! ## What WRITE_MEM answers (R124) -/

/-- R12: a write of a cell of a canonical memory changes that cell alone. -/
theorem onlyCellChanges_setCell {s : State} (a v : Nat) (hm : s.mem.wf = true) :
    OnlyCellChanges s (s.setCell a v) a v := by
  refine ⟨rfl, ?_, fun b hb => ?_⟩
  · rw [State.setCell_cell hm, if_pos rfl]
  · rw [State.setCell_cell hm, if_neg hb]

section
variable {s : State} {b : Nat}

theorem exec_writeMem_of_fieldB_le (c : Nat) (hb : s.cfg.regCount ≤ b) :
    exec (.writeMem b c) s = .next (raise s (.outOfBounds .register .fieldB b s.cfg.regCount)) :=
  (execWriteMem_eq b c s).trans <| if_pos hb

theorem exec_writeMem_of_address_le {c : Nat} (hb : b < s.cfg.regCount) (hc : s.cfg.memSize ≤ c) :
    exec (.writeMem b c) s = .next (raise s (.outOfBounds .memory .fieldC c s.cfg.memSize)) :=
  (execWriteMem_eq b c s).trans <| by rw [if_neg (Nat.not_le.mpr hb), if_pos hc]
end

/-- Settles O41: each clause is WRITE_MEM's answer on that branch of its checks. The example word decodes to
WRITE_MEM 0, 100 and so falls under the first clause. -/
theorem writeMemResult : Obligations.WriteMemResult := by
  intro s hm
  have hwrite : ∀ b c, b < s.cfg.regCount → c < s.cfg.memSize →
      ∃ t, exec (.writeMem b c) s = .next t ∧ OnlyCellChanges s t (absoluteAddress c) (s.reg b) :=
    fun b c hb hc => ⟨_, exec_writeMem_of_lt hb hc, onlyCellChanges_setCell c _ hm⟩
  refine ⟨hwrite,
    fun b c hb => ⟨_, exec_writeMem_of_fieldB_le c hb, faultsWith_raise s _⟩,
    fun b c hb hc => ⟨_, exec_writeMem_of_address_le hb hc, faultsWith_raise s _⟩,
    fun hreg hmem hx0 => ?_⟩
  have hdecode : decode 0x0006400F#32 = .instr (.writeMem 0 100) := by decide
  rw [executeWord_of_decode s hdecode, ← hx0]
  exact hwrite 0 100 hreg hmem

/-! ## The one write or the one fault of each instruction (R92, R97) -/

/-- An execution in `s` answers a next state, which either meets the frame `Writes` of the instruction's write or differs
from `s` by a raised fault. -/
def WritesOrFaults (s : State) (answer : Host.Outcome State Fault Refusal) (Writes : State → Prop) : Prop :=
  ∃ t, answer = .next t ∧ (Writes t ∨ ∃ info, FaultsWith s t info)

section
variable {s : State} {Writes : State → Prop}

theorem WritesOrFaults.of_write {t : State} (h : Writes t) : WritesOrFaults s (.next t) Writes :=
  ⟨t, rfl, .inl h⟩

theorem WritesOrFaults.of_raise (info : FaultInfo) : WritesOrFaults s (.next (raise s info)) Writes :=
  ⟨_, rfl, .inr ⟨info, faultsWith_raise s info⟩⟩

/-- R169: a failed check raises its fault; a passed one leaves the rest of the instruction to decide. -/
theorem WritesOrFaults.of_check {failed : Prop} [Decidable failed] {info : FaultInfo}
    {rest : Host.Outcome State Fault Refusal} (hrest : ¬ failed → WritesOrFaults s rest Writes) :
    WritesOrFaults s (if failed then .next (raise s info) else rest) Writes := by
  split
  · exact .of_raise info
  · next passed => exact hrest passed
end

section
variable {s : State} (b c d e : Nat)

theorem exec_loadConst_writesOrFaults (hlen : s.regs.length = s.cfg.regCount) :
    WritesOrFaults s (exec (.loadConst b c) s) fun t => b < s.cfg.regCount ∧ OnlyRegChanges s t b c := by
  rw [exec, execLoadConst_eq]
  refine .of_check fun hb => .of_write ?_
  have hb : b < s.cfg.regCount := Nat.lt_of_not_le hb
  exact ⟨hb, onlyRegChanges_setReg c (hlen ▸ hb)⟩

theorem exec_readMem_writesOrFaults (hlen : s.regs.length = s.cfg.regCount) :
    WritesOrFaults s (exec (.readMem b c d) s) fun t =>
      c < s.cfg.regCount ∧ OnlyRegChanges s t c (s.cell (offsetAddress s b d)) := by
  rw [exec, execReadMem_eq]
  refine .of_check fun _ => .of_check fun hc => .of_check fun _ => .of_write ?_
  have hc : c < s.cfg.regCount := Nat.lt_of_not_le hc
  exact ⟨hc, onlyRegChanges_setReg _ (hlen ▸ hc)⟩

theorem exec_pow_writesOrFaults (hlen : s.regs.length = s.cfg.regCount) :
    WritesOrFaults s (exec (.pow b c d e) s) fun t =>
      c < s.cfg.regCount ∧ ∃ v,
        powResult s.cfg (s.cell (offsetAddress s e d)) (s.cell (indirectAddress s b)) = .ok v ∧
        OnlyRegChanges s t c v := by
  rw [exec, execPow_eq]
  refine .of_check fun _ => .of_check fun hc => .of_check fun _ => .of_check fun _ => .of_check fun _ => ?_
  have hc : c < s.cfg.regCount := Nat.lt_of_not_le hc
  split
  · next v hpow => exact .of_write ⟨hc, v, hpow, onlyRegChanges_setReg v (hlen ▸ hc)⟩
  · next info _ => exact .of_raise info

theorem exec_writeMem_writesOrFaults (hm : s.mem.wf = true) :
    WritesOrFaults s (exec (.writeMem b c) s) fun t =>
      absoluteAddress c < s.cfg.memSize ∧ OnlyCellChanges s t (absoluteAddress c) (s.reg b) := by
  rw [exec, execWriteMem_eq]
  exact .of_check fun _ => .of_check fun hc => .of_write ⟨Nat.lt_of_not_le hc, onlyCellChanges_setCell c _ hm⟩
end

/-- R41: an instruction other than WRITE_MEM leaves every cell as it was. -/
theorem exec_cell_of_ne_writeMem {i : Instr} {s t : State} (h : exec i s = .next t) (hi : ∀ b c, i ≠ .writeMem b c)
    (a : Nat) : t.cell a = s.cell a := by
  rcases exec_raise_or_setReg_or_store h with ⟨f, rfl⟩ | ⟨j, v, rfl⟩ | ⟨b, c, hstore, -⟩
  · rfl
  · rfl
  · exact absurd hstore (hi b c)

/-- Settles O26: clause by clause, each instruction's one write or one fault. -/
theorem oneWriteOrOneFault : Obligations.OneWriteOrOneFault := fun _ hlen hm =>
  ⟨fun b c => exec_loadConst_writesOrFaults b c hlen, fun b c d => exec_readMem_writesOrFaults b c d hlen,
    fun b c d e => exec_pow_writesOrFaults b c d e hlen, fun b c => exec_writeMem_writesOrFaults b c hm,
    fun _ _ => exec_cell_of_ne_writeMem⟩

/-! ## Which cell a step can change (R41, R125) -/

theorem FaultsWith.cell_eq {s t : State} {info : FaultInfo} (h : FaultsWith s t info) (a : Nat) :
    t.cell a = s.cell a := by
  rw [h]
  rfl

/-- R124: a WRITE_MEM that changes a cell has passed its address check, and the cell is the one it names. -/
theorem address_of_exec_writeMem_cell_ne {s t : State} {a b c : Nat} (hm : s.mem.wf = true)
    (h : exec (.writeMem b c) s = .next t) (hne : t.cell a ≠ s.cell a) : c = a ∧ c < s.cfg.memSize := by
  obtain ⟨u, hu, hwrite | ⟨info, hfault⟩⟩ := exec_writeMem_writesOrFaults b c hm <;> cases h.symm.trans hu
  · obtain ⟨hc, -, -, hother⟩ := hwrite
    exact ⟨by_contra fun hac => hne (hother a (Ne.symm hac)), hc⟩
  · exact absurd (hfault.cell_eq a) hne

/-- R41: a step that changes cell `a` executes a WRITE_MEM to `a`, a cell that exists. -/
theorem writeMem_of_step_cell_ne {s t : State} {a : Nat} (hm : s.mem.wf = true) (h : step s = .next t)
    (hne : t.cell a ≠ s.cell a) : (∃ b, decode (fetchWord s) = .instr (.writeMem b a)) ∧ a < s.cfg.memSize := by
  have hr : s.Running := by
    by_contra hr
    cases h.symm.trans (step_of_not_running hr)
    exact hne rfl
  obtain ⟨b, c, hdecode⟩ : ∃ b c, decode (fetchWord s) = .instr (.writeMem b c) := by
    by_contra hno
    exact hne (step_cell_of_no_store hm h fun b c hdecode => absurd ⟨b, c, hdecode⟩ hno)
  rw [step_of_running hr, executeWord_of_decode _ hdecode] at h
  obtain ⟨rfl, hc⟩ := address_of_exec_writeMem_cell_ne (s := advancePc s) hm h hne
  exact ⟨⟨b, hdecode⟩, hc⟩

/-- R68: what the word of a WRITE_MEM holds in its fields A and C. -/
theorem fields_of_decode_writeMem {w : InstrWord} {b c : Nat} (h : decode w = .instr (.writeMem b c)) :
    fieldA w = 15 ∧ fieldCAddress w = c := by
  have hA : fieldA w = 15 := fieldA_eq_opcode_of_decode h
  rw [decode_of_fieldA_writeMem hA] at h
  cases h
  exact ⟨hA, rfl⟩

/-- Settles O36: the word of the WRITE_MEM that stored names the cell in a field of 14 bits. -/
theorem onlyWriteMemStores : Obligations.OnlyWriteMemStores := by
  intro s t hm h a hne
  obtain ⟨⟨b, hdecode⟩, ha⟩ := writeMem_of_step_cell_ne hm h hne
  obtain ⟨hA, hC⟩ := fields_of_decode_writeMem hdecode
  have hfits : fieldCAddress (fetchWord s) < 2 ^ 14 := unpack_lt _ 12 14
  exact ⟨hA, hC, by omega, ha⟩

end Sys2Proof.Machine


/-! # The power: what the power unit computes, and POW where the power fits in a cell -/

namespace Sys2Proof.Machine

/-! ## The power unit (R143, R147) -/

/-- R147: the loop that multiplies within a bound gives the exact product where it is within the bound. A factor of at least
1 only lets the products rise, so a product above the bound stays above it. -/
theorem mulWithin_eq {cellMax base p : Nat} (n : Nat) (hbase : 1 ≤ base) (hp : p ≤ cellMax) :
    mulWithin cellMax base n p = if p * base ^ n ≤ cellMax then some (p * base ^ n) else none := by
  induction n generalizing p with
  | zero => simp [mulWithin, hp]
  | succ n ih =>
    have hsplit : p * base ^ (n + 1) = p * base * base ^ n := by ring
    rw [mulWithin, hsplit]
    by_cases hover : cellMax < p * base
    · have hrise : p * base ≤ p * base * base ^ n := Nat.le_mul_of_pos_right _ (Nat.pow_pos hbase)
      rw [if_pos hover, if_neg (by omega)]
    · rw [if_neg hover, ih (Nat.le_of_not_lt hover)]

/-- R143, R147: the unit gives the exact power where it fits in a cell, and an overflow otherwise. -/
theorem powFits_eq {xlen : Nat} (op1 op2 : Nat) (hx : 1 ≤ xlen) :
    powFits xlen op1 op2 = if op1 ^ op2 ≤ 2 ^ xlen - 1 then some (op1 ^ op2) else none := by
  have hone : 1 ≤ 2 ^ xlen - 1 := by
    have : 2 ^ 1 ≤ 2 ^ xlen := Nat.pow_le_pow_right (by decide) hx
    omega
  unfold powFits
  by_cases hexp : op2 = 0
  · simp [hexp, hone]
  by_cases hbase : op1 ≤ 1
  · have hpow : op1 ^ op2 = op1 := by
      obtain rfl | rfl := Nat.le_one_iff_eq_zero_or_eq_one.mp hbase
      · exact zero_pow hexp
      · exact one_pow op2
    rw [if_neg hexp, if_pos hbase, hpow, if_pos (hbase.trans hone)]
  by_cases hwide : xlen ≤ op2
  · have hover : 2 ^ xlen ≤ op1 ^ op2 :=
      calc 2 ^ xlen ≤ 2 ^ op2 := Nat.pow_le_pow_right (by decide) hwide
        _ ≤ op1 ^ op2 := Nat.pow_le_pow_left (by omega) op2
    rw [if_neg hexp, if_neg hbase, if_pos hwide, if_neg (by omega)]
  · rw [if_neg hexp, if_neg hbase, if_neg hwide, mulWithin_eq op2 (by omega) hone, one_mul]

/-- One round of square-and-multiply keeps `acc * base ^ exp` modulo `m`. -/
theorem square_and_multiply_modEq (m base exp acc : Nat) :
    (if exp % 2 = 1 then acc * base % m else acc) * (base * base % m) ^ (exp / 2) ≡ acc * base ^ exp [MOD m] := by
  have hsquare : (base * base % m) ^ (exp / 2) ≡ base ^ (2 * (exp / 2)) [MOD m] := by
    rw [pow_mul, sq]
    exact (Nat.mod_modEq _ _).pow _
  split
  · next hodd =>
    have hexp : acc * base ^ exp = acc * base * base ^ (2 * (exp / 2)) := by
      rw [mul_assoc, ← pow_succ', show 2 * (exp / 2) + 1 = exp by omega]
    rw [hexp]
    exact (Nat.mod_modEq _ _).mul hsquare
  · next heven =>
    rw [show 2 * (exp / 2) = exp by omega] at hsquare
    exact hsquare.mul_left acc

/-- R147: with fuel for the bits of the exponent, square-and-multiply from a reduced `acc` gives `acc * base ^ exp` modulo
`m`. -/
theorem powModLoop_eq {m fuel base exp acc : Nat} (hexp : exp < 2 ^ fuel) (hacc : acc % m = acc) :
    powModLoop m fuel base exp acc = acc * base ^ exp % m := by
  induction fuel generalizing base exp acc with
  | zero =>
    obtain rfl : exp = 0 := by simpa using hexp
    simp [powModLoop, hacc]
  | succ fuel ih =>
    unfold powModLoop
    by_cases hzero : exp = 0
    · simp [hzero, hacc]
    · rw [if_neg hzero, ih (by omega) (by split <;> simp [hacc])]
      exact square_and_multiply_modEq m base exp acc

/-- R146, R147: the product taken modulo `m` at every multiplication is the exact power modulo `m`. -/
theorem powMod_eq (m op1 op2 : Nat) : powMod m op1 op2 = op1 ^ op2 % m := by
  rw [powMod, powModLoop_eq Nat.lt_log2_self (Nat.mod_mod 1 m)]
  calc 1 % m * (op1 % m) ^ op2 ≡ 1 * op1 ^ op2 [MOD m] := (Nat.mod_modEq 1 m).mul ((Nat.mod_modEq op1 m).pow op2)
    _ = op1 ^ op2 := one_mul _

/-- Settles O45: the loop within a bound decides the overflow, and square-and-multiply keeps the value modulo `m`. -/
theorem powerUnitIsExact : Obligations.PowerUnitIsExact :=
  ⟨fun _ op1 op2 hx => powFits_eq op1 op2 hx, powMod_eq⟩

/-! ## What POW answers where its checks pass (R140, R141) -/

/-- R143: an exact power that fits in a cell is what POW writes, under every policy. -/
theorem powResult_of_le {cfg : Config} {op1 op2 : Nat} (hx : 1 ≤ cfg.xlen) (hfits : op1 ^ op2 ≤ cfg.cellMax) :
    powResult cfg op1 op2 = .ok (op1 ^ op2) := by
  have hpow : powFits cfg.xlen op1 op2 = some (op1 ^ op2) := (powFits_eq op1 op2 hx).trans (if_pos hfits)
  simp [powResult, hpow]

/-- R140: with every index and address in range, the power unit decides how POW ends. -/
theorem exec_pow_of_lt {s : State} {b c d e : Nat} (hb : b < s.cfg.regCount) (hc : c < s.cfg.regCount)
    (he : e < s.cfg.regCount) (hop1 : s.reg e + d < s.cfg.memSize) (hop2 : s.reg b < s.cfg.memSize) :
    exec (.pow b c d e) s =
      complete s ((powResult s.cfg (s.cell (s.reg e + d)) (s.cell (s.reg b))).map (.setReg c)) := by
  rw [exec, execPow_eq, if_neg hb.not_ge, if_neg hc.not_ge, if_neg he.not_ge, if_neg hop1.not_ge, if_neg hop2.not_ge]
  cases powResult s.cfg (s.cell (s.reg e + d)) (s.cell (s.reg b)) <;> rfl

/-- Settles O42: with its checks passed, POW ends in the write of the exact power. The example word decodes to
POW 11, 12, 0, 10 and so falls under the first clause. -/
theorem powWritesTheExactPower : Obligations.PowWritesTheExactPower := by
  intro s hlen hx
  have hpow : ∀ b c d e, b < s.cfg.regCount → c < s.cfg.regCount → e < s.cfg.regCount →
      s.reg e + d < s.cfg.memSize → s.reg b < s.cfg.memSize →
      s.cell (s.reg e + d) ^ s.cell (s.reg b) ≤ s.cfg.cellMax →
      ∃ t, exec (.pow b c d e) s = .next t ∧
        OnlyRegChanges s t c (s.cell (s.reg e + d) ^ s.cell (s.reg b)) := by
    intro b c d e hb hc he hop1 hop2 hfits
    refine ⟨s.setReg c _, ?_, onlyRegChanges_setReg _ (hlen ▸ hc)⟩
    rw [exec_pow_of_lt hb hc he hop1 hop2, powResult_of_le hx hfits]
    rfl
  refine ⟨hpow, fun hcount hmem hmax hx10 hx11 h600 h700 => ?_⟩
  have hdecode : decode 0x1400C176#32 = .instr (.pow 11 12 0 10) := by decide
  rw [executeWord_of_decode s hdecode]
  have h := hpow 11 12 0 10 (by omega) hcount (by omega) (by omega) (by omega)
  simpa [hx10, hx11, h600, h700, hmax] using h

end Sys2Proof.Machine


/-! # Exceptions: the faulting step, the fault matrix, and the runs that never fault -/

namespace Sys2Proof.Machine

/-! ## The step that faults (R163, R170) -/

/-- Settles O23: the word executes after the increment, so the latched index, one below `pc` there, is the fetch
address. -/
theorem illegalWordFaults : Obligations.IllegalWordFaults := by
  intro s hfault hpc hA
  rw [step_of_running ⟨hfault, hpc⟩, executeWord_of_fieldA_notMem _ hA]
  rfl

/-- R30: once the latch is set, the machine takes no step. -/
theorem not_running_of_fault_ne_none {s : State} (h : s.fault ≠ none) : ¬ s.Running := fun hr => h hr.1

/-- Settles O27: of what a step can do, only the raised fault sets a clear latch, and a set latch ends the run. -/
theorem faultingStepIsPrecise : Obligations.FaultingStepIsPrecise := by
  intro s t r hfault hpc hstep hr
  rcases step_cases hstep with ⟨hended, -⟩ | ⟨-, i, e, -, rfl⟩ | ⟨-, info, rfl⟩
  · exact absurd ⟨hfault, hpc⟩ hended
  · simp [hfault] at hr
  · obtain rfl : ⟨info, s.pc⟩ = r := by simpa using hr
    exact ⟨rfl, rfl, run_of_not_running (not_running_of_fault_ne_none (by simp))⟩

/-! ## When POW's result is a fault (R146) -/

/-- R164: the power unit's only fault is the overflow, under the fault policy. -/
theorem powResult_error {cfg : Config} {op1 op2 : Nat} {info : FaultInfo} (h : powResult cfg op1 op2 = .error info) :
    cfg.powOvf = .fault ∧ info = .powOverflow op1 op2 := by
  unfold powResult at h
  split at h
  · cases h
  · split at h <;> cases h
    next hpolicy => exact ⟨hpolicy, rfl⟩

theorem powResult_of_overflow {cfg : Config} {op1 op2 : Nat} (hx : 1 ≤ cfg.xlen) (hpolicy : cfg.powOvf = .fault)
    (hover : cfg.cellMax < op1 ^ op2) : powResult cfg op1 op2 = .error (.powOverflow op1 op2) := by
  have hpow : powFits cfg.xlen op1 op2 = none := (powFits_eq op1 op2 hx).trans (if_neg hover.not_ge)
  simp [powResult, hpow, hpolicy]

/-- R212, item 5: POW has a value to write exactly when the fault policy meets no overflow. -/
theorem exists_powResult_eq_ok_iff {cfg : Config} (op1 op2 : Nat) (hx : 1 ≤ cfg.xlen) :
    (∃ v, powResult cfg op1 op2 = .ok v) ↔ (cfg.powOvf = .fault → op1 ^ op2 ≤ cfg.cellMax) := by
  refine ⟨fun ⟨v, hv⟩ hpolicy => ?_, fun hfits => ?_⟩
  · by_contra hover
    cases hv.symm.trans (powResult_of_overflow hx hpolicy (Nat.lt_of_not_le hover))
  · cases h : powResult cfg op1 op2 with
    | ok v => exact ⟨v, rfl⟩
    | error info =>
      cases h.symm.trans (powResult_of_le hx (hfits (powResult_error h).1))

/-! ## The fault matrix (R168) -/

/-- R168: the instruction's row of the matrix, with the operand, value and limit of each fault. -/
def MayRaise (s : State) : Instr → FaultInfo → Prop
  | .loadConst b _, info => info = .outOfBounds .register .fieldB b s.cfg.regCount
  | .readMem b c d, info =>
    info = .outOfBounds .register .fieldB b s.cfg.regCount ∨
    info = .outOfBounds .register .fieldC c s.cfg.regCount ∨
    info = .outOfBounds .memory .regBPlusD (s.reg b + d) s.cfg.memSize
  | .writeMem b c, info =>
    info = .outOfBounds .register .fieldB b s.cfg.regCount ∨
    info = .outOfBounds .memory .fieldC c s.cfg.memSize
  | .pow b c d e, info =>
    info = .outOfBounds .register .fieldB b s.cfg.regCount ∨
    info = .outOfBounds .register .fieldC c s.cfg.regCount ∨
    info = .outOfBounds .register .fieldE e s.cfg.regCount ∨
    info = .outOfBounds .memory .regEPlusD (s.reg e + d) s.cfg.memSize ∨
    info = .outOfBounds .memory .regB (s.reg b) s.cfg.memSize ∨
    (s.cfg.powOvf = .fault ∧ info = .powOverflow (s.cell (s.reg e + d)) (s.cell (s.reg b)))

/-- Every fault that an execution's answer holds is one of `Allowed`. -/
def RaisesOnly (answer : Host.Outcome State Fault Refusal) (Allowed : FaultInfo → Prop) : Prop :=
  ∀ t r, answer = .next t → t.fault = some r → Allowed r.info

section
variable {s : State} {Allowed : FaultInfo → Prop}

theorem RaisesOnly.of_clear {t : State} (h : t.fault = none) : RaisesOnly (.next t) Allowed := by
  rintro _ r ⟨⟩ hr
  simp [h] at hr

theorem RaisesOnly.of_raise {info : FaultInfo} (h : Allowed info) : RaisesOnly (.next (raise s info)) Allowed := by
  rintro _ _ ⟨⟩ ⟨⟩
  exact h

/-- R169: a check adds its own fault to those of the rest of the instruction. -/
theorem RaisesOnly.of_check {failed : Prop} [Decidable failed] {info : FaultInfo}
    {rest : Host.Outcome State Fault Refusal} (hinfo : Allowed info) (hrest : RaisesOnly rest Allowed) :
    RaisesOnly (if failed then .next (raise s info) else rest) Allowed := by
  split
  · exact .of_raise hinfo
  · exact hrest
end

/-- R168: every fault that an instruction raises stands in its row. -/
theorem exec_raisesOnly {s : State} (i : Instr) (hs : s.fault = none) : RaisesOnly (exec i s) (MayRaise s i) := by
  cases i with
  | loadConst b c =>
    rw [exec, execLoadConst_eq]
    exact .of_check rfl (.of_clear hs)
  | writeMem b c =>
    rw [exec, execWriteMem_eq]
    exact .of_check (.inl rfl) <| .of_check (.inr rfl) (.of_clear hs)
  | pow b c d e =>
    rw [exec, execPow_eq]
    refine .of_check (.inl rfl) <| .of_check (.inr <| .inl rfl) <| .of_check (.inr <| .inr <| .inl rfl) <|
      .of_check (.inr <| .inr <| .inr <| .inl rfl) <| .of_check (.inr <| .inr <| .inr <| .inr <| .inl rfl) ?_
    split
    · exact .of_clear hs
    · next info hpow => exact .of_raise (.inr <| .inr <| .inr <| .inr <| .inr <| powResult_error hpow)
  | readMem b c d =>
    rw [exec, execReadMem_eq]
    exact .of_check (.inl rfl) <| .of_check (.inr <| .inl rfl) <| .of_check (.inr <| .inr rfl) (.of_clear hs)

/-- R163: a word that decodes to no instruction raises its fault in every state. -/
theorem executeWord_of_decode_unknown {w : InstrWord} {a : Nat} (s : State) (h : decode w = .unknown a) :
    executeWord w s = .next (raise s (.unknownOpcode a w)) := by
  simp only [executeWord, h, execUnknown, complete_error]

/-- Settles O28: the first four clauses are the rows; a running sound machine fetches below `PROG_LEN`, so inside
memory. -/
theorem faultMatrixIsComplete : Obligations.FaultMatrixIsComplete :=
  ⟨fun b c _ t r hs => exec_raisesOnly (.loadConst b c) hs t r,
    fun b c d _ t r hs => exec_raisesOnly (.readMem b c d) hs t r,
    fun b c _ t r hs => exec_raisesOnly (.writeMem b c) hs t r,
    fun b c d e _ t r hs => exec_raisesOnly (.pow b c d e) hs t r,
    fun _ _ s h => ⟨_, executeWord_of_decode_unknown s h, rfl⟩,
    fun _ hs _ hpc => hpc.trans_le hs.progLen_le⟩

/-! ## Executing without a fault (R212) -/

/-- An execution answers a state with a clear latch. -/
def EndsClear (answer : Host.Outcome State Fault Refusal) : Prop := ∃ t, answer = .next t ∧ t.fault = none

theorem endsClear_next_iff (t : State) : EndsClear (.next t) ↔ t.fault = none :=
  ⟨fun ⟨_, h, hclear⟩ => by cases h; exact hclear, fun hclear => ⟨t, rfl, hclear⟩⟩

/-- R169: an instruction passes a check and what follows it, or it faults. -/
theorem endsClear_check_iff {s : State} {limit value : Nat} {info : FaultInfo}
    {rest : Host.Outcome State Fault Refusal} :
    EndsClear (if limit ≤ value then .next (raise s info) else rest) ↔ value < limit ∧ EndsClear rest := by
  by_cases h : limit ≤ value
  · simp [h, endsClear_next_iff]
  · simp [h, Nat.lt_of_not_le h]

/-- Settles O30: each check in turn, then the write, or for POW the power unit, which the exact power decides. -/
theorem noFaultExactlyWhenChecksPass : Obligations.NoFaultExactlyWhenChecksPass := by
  intro i s hs hx
  change EndsClear (exec i s) ↔ checksPass i s
  cases i with
  | loadConst b c =>
    rw [exec, execLoadConst_eq, endsClear_check_iff, endsClear_next_iff]
    exact and_iff_left hs
  | writeMem b c =>
    rw [exec, execWriteMem_eq, endsClear_check_iff, endsClear_check_iff, endsClear_next_iff]
    exact and_congr_right fun _ => and_iff_left hs
  | pow b c d e =>
    rw [exec, execPow_eq]
    simp only [endsClear_check_iff]
    refine and_congr_right fun _ => and_congr_right fun _ => and_congr_right fun _ => and_congr_right fun _ =>
      and_congr_right fun _ => Iff.trans ?_ (exists_powResult_eq_ok_iff _ _ hx)
    cases powResult s.cfg (s.cell (s.reg e + d)) (s.cell (s.reg b)) <;> simp [endsClear_next_iff, hs]
  | readMem b c d =>
    rw [exec, execReadMem_eq, endsClear_check_iff, endsClear_check_iff, endsClear_check_iff, endsClear_next_iff]
    exact and_congr_right fun _ => and_congr_right fun _ => and_iff_left hs

/-! ## The runs that never fault (R98, R174) -/

/-- R98: a run has one end. -/
theorem run_end_unique {s t u : State} {n m : Nat} (ht : Sys2Proof.core.run n s = .next t) (hended : ¬ t.Running)
    (hu : Sys2Proof.core.run m s = .next u) (huended : ¬ u.Running) : t = u := by
  have hn : Sys2Proof.core.run (n + m) s = .next t := (run_add m ht).trans (run_of_not_running hended m)
  have hm : Sys2Proof.core.run (m + n) s = .next u := (run_add n hu).trans (run_of_not_running huended n)
  rw [Nat.add_comm, hn] at hm
  cases hm
  rfl

theorem State.Completed.not_running {s : State} (h : s.Completed) : ¬ s.Running :=
  s.not_running_iff.mpr (.inr h.2)

/-- R28: a machine that has ended without a fault has completed. -/
theorem State.completed_of_not_running {s : State} (hr : ¬ s.Running) (h : s.fault = none) : s.Completed :=
  ⟨h, (s.not_running_iff.mp hr).resolve_left (not_not.mpr h)⟩

/-- Settles O32: a safe run ends, and then without a fault; a faulted state would be the one end of its run, which the
completed state is. -/
theorem safeRunsAreThoseThatComplete : Obligations.SafeRunsAreThoseThatComplete := by
  intro s _ _
  refine ⟨fun hsafe => ?_, fun ⟨n, t, ht, hcompleted⟩ m u hu => ?_⟩
  · obtain ⟨n, t, -, hend⟩ := exists_endsAfter s
    exact ⟨n, t, hend.run_eq, State.completed_of_not_running hend.not_running (hsafe n t hend.run_eq)⟩
  · by_contra hfault
    obtain rfl : t = u := run_end_unique ht hcompleted.not_running hu (not_running_of_fault_ne_none hfault)
    exact hfault hcompleted.1

end Sys2Proof.Machine


/-! # Reset and hazards: the fixed termination boundary (R213) -/

namespace Sys2Proof.Machine

/-- R28: with a clear fault latch, halted is exactly having reached the program's end. -/
theorem State.status_eq_halted_iff_of_clear {s : State} (hs : s.fault = none) :
    s.status = .halted ↔ s.progLen ≤ s.pc := by
  rw [State.status, hs]
  by_cases hpc : s.pc < s.progLen
  · simp [hpc]
  · simp [hpc, Nat.le_of_not_lt hpc]

/-- Settles O34: no step of the run moves `pc` back or touches `PROG_LEN`, and halting is judged by that `PROG_LEN`. -/
theorem terminationBoundaryIsFixed : Obligations.TerminationBoundaryIsFixed := by
  intro n s t hrun
  obtain ⟨hpc, hlen⟩ := run_pc_le_and_progLen n hrun
  refine ⟨hlen, run_cfg n hrun, hpc, fun hclear => ?_⟩
  rw [← hlen]
  exact State.status_eq_halted_iff_of_clear hclear

end Sys2Proof.Machine


/-! # Encoding: the bits that belong to no field (R71), and known words -/

namespace Sys2Proof

/-- R61 to R64: the opcode decides the format, and so which bits of the word are used. -/
theorem usedMask_eq_of_opcode_eq {i j : Instr} (h : i.opcode = j.opcode) : i.usedMask = j.usedMask := by
  match i, j, h with
  | .loadConst .., .loadConst .., _ | .writeMem .., .writeMem .., _ | .pow .., .pow .., _ | .readMem .., .readMem .., _ =>
    rfl

/-- R60: field A lies in the used bits of every format. -/
theorem fieldA_eq_of_usedMask_eq {w w' : InstrWord} {i : Instr} (h : w &&& i.usedMask = w' &&& i.usedMask) :
    fieldA w = fieldA w' := by
  have hused : w.toNat % 2 ^ i.usedBits = w'.toNat % 2 ^ i.usedBits := by
    rw [← toNat_and_usedMask, h, toNat_and_usedMask]
  have hin : 5 ≤ i.usedBits := by cases i <;> simp [Instr.usedBits]
  exact Nat.ModEq.of_dvd (pow_dvd_pow 2 hin) hused

/-- R71: the used bits decide the decoding. Both words decode to an instruction of the one format, the used bits are the
encoding of either, and decoding takes that encoding back to both. -/
theorem decode_eq_of_usedMask_eq {w w' : InstrWord} {i : Instr} (h : decode w = .instr i)
    (hmask : w &&& i.usedMask = w' &&& i.usedMask) : decode w' = .instr i := by
  have hA : fieldA w = fieldA w' := fieldA_eq_of_usedMask_eq hmask
  obtain ⟨j, hj⟩ : ∃ j, decode w' = .instr j :=
    exists_decode_eq_instr_iff.mpr (hA ▸ exists_decode_eq_instr_iff.mp ⟨i, h⟩)
  have hop : i.opcode = j.opcode := by
    rw [← fieldA_eq_opcode_of_decode h, hA, fieldA_eq_opcode_of_decode hj]
  obtain ⟨hwfi, henci⟩ := encodeOfDecodedIsTheWord w i h
  obtain ⟨hwfj, hencj⟩ := encodeOfDecodedIsTheWord w' j hj
  have henc : encode j = encode i := by rw [hencj, henci, hmask, usedMask_eq_of_opcode_eq hop]
  calc decode w' = .instr j := hj
    _ = decode (encode j) := (decodeEncodeRoundTrip j hwfj).symm
    _ = .instr i := by rw [henc, decodeEncodeRoundTrip i hwfi]

end Sys2Proof

namespace Sys2Proof.Machine

/-- R71: bits that the format of a word does not use change neither its decoding nor its execution. -/
theorem decode_and_executeWord_of_usedMask_eq {w w' : InstrWord} {i : Instr} (h : decode w = .instr i)
    (hmask : w &&& i.usedMask = w' &&& i.usedMask) :
    decode w' = decode w ∧ ∀ s, executeWord w' s = executeWord w s := by
  have h' : decode w' = .instr i := decode_eq_of_usedMask_eq h hmask
  exact ⟨h'.trans h.symm, fun s => by rw [executeWord_of_decode s h', executeWord_of_decode s h]⟩

/-- Settles O3: field A gives the format, its used bits decide decoding and execution, and the encoder stays inside them. -/
theorem unusedBitsAreIgnored : Obligations.UnusedBitsAreIgnored := by
  refine ⟨fun w w' hA hmask => ?_, fun w w' hA hmask => ?_, fun w w' hA hmask => ?_,
    Laws.EncodeStaysInMask.loadConst, Laws.EncodeStaysInMask.readMem, Laws.EncodeStaysInMask.writeMem⟩
  · have h := decode_of_fieldA_loadConst hA
    exact ⟨⟨_, _, h⟩, decode_and_executeWord_of_usedMask_eq h hmask⟩
  · have h := decode_of_fieldA_readMem hA
    exact ⟨⟨_, _, _, h⟩, decode_and_executeWord_of_usedMask_eq h hmask⟩
  · have h := decode_of_fieldA_writeMem hA
    exact ⟨⟨_, _, h⟩, decode_and_executeWord_of_usedMask_eq h hmask⟩

/-- Settles O9: the words are closed, so the decoder computes each answer. -/
theorem knownWordsDecode : Obligations.KnownWordsDecode := by
  unfold Obligations.KnownWordsDecode
  decide

end Sys2Proof.Machine


/-! # Load: its checks, the state it establishes, and the placing of one word -/

namespace Sys2Proof

/-! ## The words of a byte stream (R42, R201) -/

/-- R42: the four bytes of a chunk fill the word, so nothing is cut off. -/
theorem toNat_wordOfBytes (b0 b1 b2 b3 : Byte) :
    (wordOfBytes b0 b1 b2 b3).toNat = b0.toNat + 256 * b1.toNat + 65536 * b2.toNat + 16777216 * b3.toNat := by
  rw [wordOfBytes, BitVec.toNat_ofNat, Nat.mod_eq_of_lt]
  omega

/-- R42, R201: word `k` of a stream is its chunk of four bytes from byte `4k` on, least significant first. -/
theorem getD_wordsOfBytes (bytes : List Byte) {k : Nat} (hk : k < bytes.length / 4) :
    ((wordsOfBytes bytes).map (·.toNat)).getD k 0 =
      (bytes.getD (4 * k) 0).toNat + 256 * (bytes.getD (4 * k + 1) 0).toNat +
        65536 * (bytes.getD (4 * k + 2) 0).toNat + 16777216 * (bytes.getD (4 * k + 3) 0).toNat := by
  induction bytes using wordsOfBytes.induct generalizing k with
  | case1 b0 b1 b2 b3 rest ih =>
    rw [wordsOfBytes, List.map_cons, toNat_wordOfBytes]
    cases k with
    | zero => rfl
    | succ k => exact ih (by simp only [List.length_cons] at hk; omega)
  | case2 bytes hshort =>
    match bytes, hshort with
    | [], _ | [_], _ | [_, _], _ | [_, _, _], _ => simp at hk
    | b0 :: b1 :: b2 :: b3 :: rest, hshort => exact absurd rfl (hshort b0 b1 b2 b3 rest)

end Sys2Proof

namespace Sys2Proof.Machine

/-! ## What load answers (R202, R208) -/

section
variable {cfg : Config} {bytes : List Byte}

theorem load_of_not_valid (bytes : List Byte) (hinvalid : ¬ cfg.Valid) :
    load cfg bytes = .refused (.invalidConfiguration cfg) := if_pos hinvalid

theorem load_of_misaligned (hvalid : cfg.Valid) (halign : bytes.length % 4 ≠ 0) :
    load cfg bytes = .fault (.alignmentError bytes.length) := by
  rw [load, if_neg (not_not.mpr hvalid), if_pos halign]

theorem load_of_oversized (hvalid : cfg.Valid) (halign : bytes.length % 4 = 0)
    (hsize : cfg.memSize < bytes.length / 4) :
    load cfg bytes = .fault (.sizeError (bytes.length / 4) cfg.memSize) := by
  rw [load, if_neg (not_not.mpr hvalid), if_neg (not_not.mpr halign), if_pos hsize]

theorem load_of_fits (hvalid : cfg.Valid) (halign : bytes.length % 4 = 0) (hsize : bytes.length / 4 ≤ cfg.memSize) :
    load cfg bytes = .next (loadedState cfg (wordsOfBytes bytes)) := by
  rw [load, if_neg (not_not.mpr hvalid), if_neg (not_not.mpr halign), if_neg hsize.not_gt]
end

/-- Settles O11: the three clauses are load's three answers to a valid configuration. -/
theorem loadChecksInOrder : Obligations.LoadChecksInOrder := fun _ _ hvalid =>
  ⟨load_of_misaligned hvalid, load_of_oversized hvalid, fun halign hsize => ⟨_, load_of_fits hvalid halign hsize⟩⟩

/-- Settles O12: of load's answers, the refusal is the one to a configuration that is not valid. -/
theorem badConfigurationIsRefused : Obligations.BadConfigurationIsRefused := by
  refine fun cfg bytes => ⟨fun ⟨r, hr⟩ hvalid => ?_, fun hinvalid => ⟨_, load_of_not_valid bytes hinvalid⟩⟩
  by_cases halign : bytes.length % 4 = 0
  · by_cases hsize : cfg.memSize < bytes.length / 4
    · cases hr.symm.trans (load_of_oversized hvalid halign hsize)
    · cases hr.symm.trans (load_of_fits hvalid halign (Nat.le_of_not_lt hsize))
  · cases hr.symm.trans (load_of_misaligned hvalid halign)

/-! ## The state that load establishes (R203) -/

/-- R203: load writes zero into every register. -/
theorem loadedState_reg (cfg : Config) (words : List InstrWord) (i : Nat) : (loadedState cfg words).reg i = 0 := by
  simp only [State.reg, loadedState, List.getD_eq_getElem?_getD, List.getElem?_replicate]
  split <;> rfl

/-- R203: load writes the program's words from cell 0 on, and zero into every cell beyond them. -/
theorem loadedState_cell (cfg : Config) (words : List InstrWord) (a : Nat) :
    (loadedState cfg words).cell a = (words.map (·.toNat)).getD a 0 := by
  have h := Memory.read_ofWords words 0 a
  rwa [Nat.zero_add] at h

/-- Settles O10: the loaded state, whose cells are the stream's chunks and then zeros. -/
theorem loadEstablishesTheState : Obligations.LoadEstablishesTheState := by
  intro cfg bytes hvalid halign hsize
  refine ⟨_, load_of_fits hvalid halign hsize, rfl, List.length_replicate, fun i _ => loadedState_reg _ _ i,
    fun k hk => ?_, fun a ha => ?_, rfl, wordsOfBytes_length bytes, rfl⟩
  · rw [loadedState_cell, getD_wordsOfBytes bytes hk]
  · rw [loadedState_cell, List.getD_eq_default]
    rwa [List.length_map, wordsOfBytes_length]

/-- Settles O14: the default configuration is valid, so the empty stream loads, and the state that it gives is the reset
state, whose program has length 0. -/
theorem resetIsTheEmptyLoad : Obligations.ResetIsTheEmptyLoad :=
  ⟨load_nil (cfg := Config.default) (by decide), rfl⟩

/-- Settles O16: the reset state is a loaded state, and every loaded state is sound. -/
theorem resetStateIsSound : Obligations.ResetStateIsSound :=
  loadedStateIsSound Config.default [] State.reset resetIsTheEmptyLoad.1

/-! ## The placing of one word for the next fetch -/

/-- Of a 32-bit word, `withFetchWord` cuts nothing off. -/
theorem withFetchWord_32 (s : State) (w : Nat) : s.withFetchWord 32 w = placeWord s (BitVec.ofNat 32 w) := by
  rw [State.withFetchWord, ← BitVec.toNat_ofNat, BitVec.ofNat_toNat, BitVec.setWidth_eq]

/-- R203: placing a word in the empty program is the load of the program of that word alone. -/
theorem placeWord_loadedState_nil (cfg : Config) (w : InstrWord) :
    placeWord (loadedState cfg []) w = loadedState cfg [w] := rfl

theorem fetchWord_placeWord {s : State} (w : InstrWord) (hm : s.mem.wf = true) : fetchWord (placeWord s w) = w := by
  have hcell : (placeWord s w).cell s.pc = w.toNat := by
    rw [State.cell, placeWord_mem, Memory.read_write hm, if_pos rfl]
  rw [fetchWord, placeWord_pc, hcell, BitVec.ofNat_toNat, BitVec.setWidth_eq]

theorem running_placeWord (s : State) (w : InstrWord) : (placeWord s w).Running :=
  ⟨rfl, by rw [placeWord_pc, placeWord_progLen]; omega⟩

/-- Settles O15: on the empty program the placed word is the whole program, and wherever it is placed, the machine runs
and fetches it. -/
theorem withFetchWordIsALoad : Obligations.WithFetchWordIsALoad := by
  refine ⟨fun cfg w => ?_, fun s w hm => ?_⟩
  · rw [withFetchWord_32, placeWord_loadedState_nil]
  · rw [withFetchWord_32, step_of_running (running_placeWord s _), fetchWord_placeWord _ hm]
    rfl

/-! ## The run status (R28) -/

theorem State.status_eq_faulted_of_fault_ne_none {s : State} (h : s.fault ≠ none) : s.status = .faulted := by
  obtain ⟨r, hr⟩ := Option.ne_none_iff_exists'.mp h
  rw [State.status, hr]

theorem State.fault_eq_none_of_status_eq_halted {s : State} (h : s.status = .halted) : s.fault = none := by
  by_contra hfault
  cases h.symm.trans (State.status_eq_faulted_of_fault_ne_none hfault)

/-- Settles O20: the status has one case for the latch and two for `pc`, and a sound state's `pc` is at most `PROG_LEN`. -/
theorem statusFollowsPcAndLatch : Obligations.StatusFollowsPcAndLatch := by
  refine fun s => ⟨State.status_eq_faulted_of_fault_ne_none, fun hs hpc => s.status_eq_running_iff.mpr ⟨hs, hpc⟩,
    fun hs => (State.status_eq_halted_iff_of_clear hs).mpr, fun hinv => ⟨hinv.pc_le, fun hhalted => ?_⟩⟩
  have hs : s.fault = none := State.fault_eq_none_of_status_eq_halted hhalted
  exact le_antisymm hinv.pc_le ((State.status_eq_halted_iff_of_clear hs).mp hhalted)

end Sys2Proof.Machine


/-! # What holds along every run: the bound of a cell, the causes of a fault, the registers no field can name -/

namespace Sys2Proof.Machine

/-- Settles O19: the loaded state is sound, the run keeps it so, and a sound state's values are within `CELL_MAX`. -/
theorem everyValueFitsInACell : Obligations.EveryValueFitsInACell := by
  intro cfg bytes s t n hload hrun
  have ht : t.Inv := (loadedStateIsSound cfg bytes s hload).run n hrun
  obtain ⟨-, -, rfl⟩ := load_cases hload
  obtain rfl : t.cfg = cfg := run_cfg n hrun
  exact ⟨ht.reg_le, ht.cell_le⟩

/-! ## The causes that a step can raise (R165, R168) -/

/-- R168: an instruction's row of the matrix holds two causes. -/
theorem MayRaise.cause_eq {s : State} {i : Instr} {info : FaultInfo} (h : MayRaise s i info) :
    info.cause = .outOfBoundsError ∨ info.cause = .powOverflowError := by
  cases i with
  | loadConst b c => exact .inl (congrArg FaultInfo.cause h)
  | writeMem b c => rcases h with rfl | rfl <;> exact .inl rfl
  | pow b c d e =>
    rcases h with rfl | rfl | rfl | rfl | rfl | ⟨-, rfl⟩
    case inr.inr.inr.inr.inr => exact .inr rfl
    all_goals exact .inl rfl
  | readMem b c d => rcases h with rfl | rfl | rfl <;> exact .inl rfl

/-- R161, R168: what the execution of any word can raise. -/
theorem executeWord_raisesOnly {s : State} (w : InstrWord) (hs : s.fault = none) :
    RaisesOnly (executeWord w s) fun info =>
      info.cause = .unknownOpcodeError ∨ info.cause = .outOfBoundsError ∨ info.cause = .powOverflowError := by
  cases hdecode : decode w with
  | instr i =>
    rw [executeWord_of_decode s hdecode]
    exact fun t r ht hr => .inr (exec_raisesOnly i hs t r ht hr).cause_eq
  | unknown a =>
    rw [executeWord_of_decode_unknown s hdecode]
    exact .of_raise (.inl rfl)

/-- Settles O29: the execution of a word raises one of three causes, none of them among the excluded ones. -/
theorem negativeExponentIsNeverRaised : Obligations.NegativeExponentIsNeverRaised := by
  intro s t r hs hstep hr
  have hrunning : s.Running := by
    by_contra hended
    cases hstep.symm.trans (step_of_not_running hended)
    simp [hs] at hr
  rw [step_of_running hrunning] at hstep
  rcases executeWord_raisesOnly _ (s := advancePc s) hs t r hstep hr with h | h | h <;> rw [h] <;> decide

end Sys2Proof.Machine

namespace Sys2Proof

/-! ## The registers that no instruction can name (R9, U8) -/

/-- R110, R120, R140: the register that the instruction writes; WRITE_MEM has none. -/
def Instr.destination : Instr → Option Nat
  | .loadConst b _ => some b
  | .writeMem _ _ => none
  | .pow _ c _ _ => some c
  | .readMem _ c _ => some c

/-- R60: a register field has 7 bits. -/
theorem destination_ne_of_wellFormed {i : Instr} {j : Nat} (hi : i.wellFormed = true) (hj : 128 ≤ j) :
    i.destination ≠ some j := by
  intro hdest
  cases i <;> cases hdest
  case loadConst c => exact hj.not_gt ((wellFormed_loadConst _ _).mp hi).1
  case pow b d e => exact hj.not_gt ((wellFormed_pow _ _ _ _).mp hi).2.1
  case readMem b d => exact hj.not_gt ((wellFormed_readMem _ _ _).mp hi).2.1

end Sys2Proof

namespace Sys2Proof.Machine

theorem State.setReg_reg_of_ne (s : State) {i j : Nat} (v : Nat) (h : some i ≠ some j) :
    (s.setReg i v).reg j = s.reg j := by
  rw [State.setReg_reg, if_neg fun hji => h (congrArg some hji.1.symm)]

/-- R97: an instruction's write, where it is not of register `j`, leaves register `j` as it was. -/
theorem exec_writesOrFaults_reg_eq {i : Instr} {j : Nat} (s : State) (h : i.destination ≠ some j) :
    WritesOrFaults s (exec i s) fun t => t.reg j = s.reg j := by
  cases i with
  | loadConst b c =>
    rw [exec, execLoadConst_eq]
    exact .of_check fun _ => .of_write (s.setReg_reg_of_ne _ h)
  | writeMem b c =>
    rw [exec, execWriteMem_eq]
    exact .of_check fun _ => .of_check fun _ => .of_write rfl
  | pow b c d e =>
    rw [exec, execPow_eq]
    refine .of_check fun _ => .of_check fun _ => .of_check fun _ => .of_check fun _ => .of_check fun _ => ?_
    split
    · exact .of_write (s.setReg_reg_of_ne _ h)
    · next info _ => exact .of_raise info
  | readMem b c d =>
    rw [exec, execReadMem_eq]
    exact .of_check fun _ => .of_check fun _ => .of_check fun _ => .of_write (s.setReg_reg_of_ne _ h)

theorem FaultsWith.reg_eq {s t : State} {info : FaultInfo} (h : FaultsWith s t info) (j : Nat) :
    t.reg j = s.reg j := by
  rw [h]
  rfl

/-- U8: no word names a register at or above 128, so the execution of none changes one. -/
theorem executeWord_reg_of_le {w : InstrWord} {s t : State} {j : Nat} (h : executeWord w s = .next t)
    (hj : 128 ≤ j) : t.reg j = s.reg j := by
  cases hdecode : decode w with
  | instr i =>
    rw [executeWord_of_decode s hdecode] at h
    obtain ⟨u, hu, hreg | ⟨info, hfault⟩⟩ :=
      exec_writesOrFaults_reg_eq s (destination_ne_of_wellFormed (wellFormed_of_decode hdecode) hj) <;>
      cases h.symm.trans hu
    · exact hreg
    · exact hfault.reg_eq j
  | unknown a =>
    cases h.symm.trans (executeWord_of_decode_unknown s hdecode)
    rfl

theorem step_reg_of_le {s t : State} {j : Nat} (h : step s = .next t) (hj : 128 ≤ j) : t.reg j = s.reg j := by
  by_cases hr : s.Running
  · rw [step_of_running hr] at h
    exact executeWord_reg_of_le (s := advancePc s) h hj
  · cases h.symm.trans (step_of_not_running hr)
    rfl

/-- Settles O37: load starts these registers at 0, and no step of the run changes one. -/
theorem unnamedRegistersStayZero : Obligations.UnnamedRegistersStayZero := by
  refine ⟨fun s t h i => step_reg_of_le h, fun cfg bytes s t n hload hrun i hi => ?_⟩
  obtain ⟨-, -, rfl⟩ := load_cases hload
  exact run_induction (P := fun u => u.reg i = 0) (fun u v hu hstep => (step_reg_of_le hstep hi).trans hu) n _ t
    (loadedState_reg _ _ i) hrun

end Sys2Proof.Machine


/-! # The power: POW's checks in order, its overflow, and wider cells -/

namespace Sys2Proof.Machine

/-! ## The checks of POW in order (R140, R169) -/

section
variable {s : State} {b c e : Nat} (d : Nat)

theorem exec_pow_of_fieldB_le (c e : Nat) (hb : s.cfg.regCount ≤ b) :
    exec (.pow b c d e) s = .next (raise s (.outOfBounds .register .fieldB b s.cfg.regCount)) := by
  rw [exec, execPow_eq, if_pos hb]

theorem exec_pow_of_fieldC_le (e : Nat) (hb : b < s.cfg.regCount) (hc : s.cfg.regCount ≤ c) :
    exec (.pow b c d e) s = .next (raise s (.outOfBounds .register .fieldC c s.cfg.regCount)) := by
  rw [exec, execPow_eq, if_neg hb.not_ge, if_pos hc]

theorem exec_pow_of_fieldE_le (hb : b < s.cfg.regCount) (hc : c < s.cfg.regCount) (he : s.cfg.regCount ≤ e) :
    exec (.pow b c d e) s = .next (raise s (.outOfBounds .register .fieldE e s.cfg.regCount)) := by
  rw [exec, execPow_eq, if_neg hb.not_ge, if_neg hc.not_ge, if_pos he]

theorem exec_pow_of_address1_le (hb : b < s.cfg.regCount) (hc : c < s.cfg.regCount) (he : e < s.cfg.regCount)
    (hop1 : s.cfg.memSize ≤ s.reg e + d) :
    exec (.pow b c d e) s = .next (raise s (.outOfBounds .memory .regEPlusD (s.reg e + d) s.cfg.memSize)) := by
  rw [exec, execPow_eq, if_neg hb.not_ge, if_neg hc.not_ge, if_neg he.not_ge, if_pos hop1]

theorem exec_pow_of_address2_le (hb : b < s.cfg.regCount) (hc : c < s.cfg.regCount) (he : e < s.cfg.regCount)
    (hop1 : s.reg e + d < s.cfg.memSize) (hop2 : s.cfg.memSize ≤ s.reg b) :
    exec (.pow b c d e) s = .next (raise s (.outOfBounds .memory .regB (s.reg b) s.cfg.memSize)) := by
  rw [exec, execPow_eq, if_neg hb.not_ge, if_neg hc.not_ge, if_neg he.not_ge, if_neg hop1.not_ge, if_pos hop2]
end

/-- Settles O43: each clause is POW's answer on that branch of its checks. -/
theorem powChecksInOrder : Obligations.PowChecksInOrder := fun s _ c d e =>
  ⟨fun hb => ⟨_, exec_pow_of_fieldB_le d c e hb, faultsWith_raise s _⟩,
    fun hb hc => ⟨_, exec_pow_of_fieldC_le d e hb hc, faultsWith_raise s _⟩,
    fun hb hc he => ⟨_, exec_pow_of_fieldE_le d hb hc he, faultsWith_raise s _⟩,
    fun hb hc he hop1 => ⟨_, exec_pow_of_address1_le d hb hc he hop1, faultsWith_raise s _⟩,
    fun hb hc he hop1 hop2 => ⟨_, exec_pow_of_address2_le d hb hc he hop1 hop2, faultsWith_raise s _⟩⟩

/-! ## The overflow (R146) -/

theorem powFits_of_overflow {cfg : Config} {op1 op2 : Nat} (hx : 1 ≤ cfg.xlen) (hover : cfg.cellMax < op1 ^ op2) :
    powFits cfg.xlen op1 op2 = none :=
  (powFits_eq op1 op2 hx).trans (if_neg hover.not_ge)

/-- R146: the wrap policy's answer to an overflow; `powResult_of_overflow` is the fault policy's. -/
theorem powResult_of_overflow_wrap {cfg : Config} {op1 op2 : Nat} (hx : 1 ≤ cfg.xlen) (hpolicy : cfg.powOvf = .wrap)
    (hover : cfg.cellMax < op1 ^ op2) : powResult cfg op1 op2 = .ok (op1 ^ op2 % 2 ^ cfg.xlen) := by
  simp [powResult, powFits_of_overflow hx hover, hpolicy, powMod_eq]

theorem powResult_of_overflow_saturate {cfg : Config} {op1 op2 : Nat} (hx : 1 ≤ cfg.xlen)
    (hpolicy : cfg.powOvf = .saturate) (hover : cfg.cellMax < op1 ^ op2) :
    powResult cfg op1 op2 = .ok cfg.cellMax := by
  simp [powResult, powFits_of_overflow hx hover, hpolicy]

/-- Settles O44: with its checks passed, POW ends as the power unit's answer to the overflow says. -/
theorem powOverflowPolicies : Obligations.PowOverflowPolicies := by
  intro s b c d e hlen hx hb hc he hop1 hop2 hover
  rw [exec_pow_of_lt hb hc he hop1 hop2]
  refine ⟨fun hpolicy => ?_, fun hpolicy => ?_, fun hpolicy => ?_⟩
  · rw [powResult_of_overflow hx hpolicy hover]
    exact ⟨_, rfl, faultsWith_raise s _⟩
  · rw [powResult_of_overflow_wrap hx hpolicy hover]
    exact ⟨_, rfl, onlyRegChanges_setReg _ (hlen ▸ hc)⟩
  · rw [powResult_of_overflow_saturate hx hpolicy hover]
    exact ⟨_, rfl, onlyRegChanges_setReg _ (hlen ▸ hc)⟩

/-- Settles O46: the rows are closed and the unit gives up at the first product above `CELL_MAX`, so it computes each. -/
theorem powerCornerTable : Obligations.PowerCornerTable := by
  unfold Obligations.PowerCornerTable
  decide

/-! ## Wider cells (R146) -/

/-- A value within `CELL_MAX` stays within it when cells get wider. -/
theorem State.cellMax_le_withXlen {s : State} {x : Nat} (hx : s.cfg.xlen ≤ x) :
    s.cfg.cellMax ≤ (s.withXlen x).cfg.cellMax :=
  Nat.sub_le_sub_right (Nat.pow_le_pow_right (by decide) hx) 1

/-- R92: neither the one write nor the raised fault looks at the width of a cell. -/
theorem complete_withXlen {s t : State} {r : Except FaultInfo Effect} (x : Nat) (h : complete s r = .next t) :
    complete (s.withXlen x) r = .next (t.withXlen x) := by
  rcases complete_cases h with ⟨e, rfl, rfl⟩ | ⟨info, rfl, rfl⟩
  · cases e <;> rfl
  · rfl

/-- R146: a power that the fault policy lets POW write is exact, and a wider cell holds it too. -/
theorem exec_pow_withXlen {s t : State} {b c d e x : Nat} (hpolicy : s.cfg.powOvf = .fault) (hxlen : 1 ≤ s.cfg.xlen)
    (hx : s.cfg.xlen ≤ x) (hs : s.fault = none) (h : exec (.pow b c d e) s = .next t) (ht : t.fault = none) :
    exec (.pow b c d e) (s.withXlen x) = .next (t.withXlen x) := by
  obtain ⟨hb, hc, he, hop1, hop2, hfits⟩ := (noFaultExactlyWhenChecksPass (.pow b c d e) s hs hxlen).mp ⟨t, h, ht⟩
  have hpow := hfits hpolicy
  rw [exec_pow_of_lt hb hc he hop1 hop2, powResult_of_le hxlen hpow] at h
  have hwide : powResult (s.withXlen x).cfg ((s.withXlen x).cell ((s.withXlen x).reg e + d))
      ((s.withXlen x).cell ((s.withXlen x).reg b)) = .ok (s.cell (s.reg e + d) ^ s.cell (s.reg b)) :=
    powResult_of_le (hxlen.trans hx) (hpow.trans (State.cellMax_le_withXlen hx))
  rw [exec_pow_of_lt (s := s.withXlen x) hb hc he hop1 hop2, hwide]
  exact complete_withXlen x h

/-- R146: POW alone depends on the width of a cell. -/
theorem exec_withXlen {i : Instr} {s t : State} {x : Nat} (hpolicy : s.cfg.powOvf = .fault) (hxlen : 1 ≤ s.cfg.xlen)
    (hx : s.cfg.xlen ≤ x) (hs : s.fault = none) (h : exec i s = .next t) (ht : t.fault = none) :
    exec i (s.withXlen x) = .next (t.withXlen x) := by
  cases i with
  | pow b c d e => exact exec_pow_withXlen hpolicy hxlen hx hs h ht
  | loadConst b c => exact complete_withXlen x h
  | writeMem b c => exact complete_withXlen x h
  | readMem b c d => exact complete_withXlen x h

/-- R92, R146: a step that ends without a fault is the step of the machine with wider cells. -/
theorem step_withXlen {s t : State} {x : Nat} (hpolicy : s.cfg.powOvf = .fault) (hxlen : 1 ≤ s.cfg.xlen)
    (hx : s.cfg.xlen ≤ x) (h : step s = .next t) (ht : t.fault = none) :
    step (s.withXlen x) = .next (t.withXlen x) := by
  by_cases hr : s.Running
  · have hrx : (s.withXlen x).Running := hr
    rw [step_of_running hr] at h
    rw [step_of_running hrx]
    change executeWord (fetchWord s) ((advancePc s).withXlen x) = .next (t.withXlen x)
    cases hdecode : decode (fetchWord s) with
    | instr i =>
      rw [executeWord_of_decode _ hdecode] at h ⊢
      exact exec_withXlen (s := advancePc s) hpolicy hxlen hx hr.1 h ht
    | unknown a =>
      rw [executeWord_of_decode_unknown _ hdecode] at h
      cases h
      simp at ht
  · cases h.symm.trans (step_of_not_running hr)
    exact step_of_not_running hr

/-- R91: a run that ends without a fault has passed no fault. -/
theorem fault_eq_none_of_run {n : Nat} {s t : State} (h : Sys2Proof.core.run n s = .next t) (ht : t.fault = none) :
    s.fault = none := by
  by_contra hs
  cases h.symm.trans (run_of_not_running (not_running_of_fault_ne_none hs) n)
  exact hs ht

/-- Settles O48: every step of such a run ends without a fault, so the wider machine takes the same step. -/
theorem faultPolicyAgreesWithWiderCells : Obligations.FaultPolicyAgreesWithWiderCells := by
  intro n x s t hpolicy hxlen hx hrun ht
  induction n generalizing s with
  | zero =>
    rw [run_zero] at hrun
    cases hrun
    exact run_zero _
  | succ n ih =>
    obtain ⟨u, hu⟩ := step_is_next s
    rw [run_succ n hu] at hrun
    have hcfg : u.cfg = s.cfg := (step_progLen_cfg_pc hu).2.1
    rw [run_succ n (step_withXlen hpolicy hxlen hx hu (fault_eq_none_of_run hrun ht))]
    exact ih u (hcfg ▸ hpolicy) (hcfg ▸ hxlen) (hcfg ▸ hx) hrun

end Sys2Proof.Machine
